-- ==== Sys2Proof/Word.lean ====
section
/-! DEFINITION. The value types of 00:R10 and 00:R11, under the spec's own names. -/

namespace Sys2Proof

/-- `Bit` (R10): 0 is `false`, 1 is `true`; `not b` is `!b`. -/
abbrev Bit := Bool

/-- `U<8>` (R10): a serial byte, a trace identifier. -/
abbrev Byte := BitVec 8

/-- `U<32>` and `S<32>` (R10): the counters, and `pos`, which is read as signed by `BitVec.toInt`. -/
abbrev Word := BitVec 32

/-- `S<16>` (R44): a quaternion component, read as signed by `BitVec.toInt`. -/
abbrev Half := BitVec 16

/-- A calibration code, 0 to 3 (R44). -/
abbrev Code := BitVec 2

/-- A decimal digit, 0 to 9 (R36). -/
abbrev Digit := Fin 10

/-- `Num` (R11), under a name of its own beside Mathlib's `Num`: the rationals. A float NUMERIC is the same type with every operation rounded
(Machine/Operands.lean). -/
abbrev NumV := Rat

end Sys2Proof
end

