-- ==== Sys2Proof/Syntax.lean ====
section
/-! DEFINITION. The operations of the core (30:R80) as one inductive, one constructor per mnemonic of
spec/opcode_table.json, with the operands 30:R88 gives them; the names they mention; a line of a trace. -/

namespace Sys2Proof

/-- The six interrupt sources k = 1..6 of R215, named by their handlers. -/
inductive Source where
  | qaRise | qbEdge | pwRise | pwFall | leTick | liIndex
  deriving DecidableEq, Repr, Inhabited

/-- The digital input lines of R62. -/
inductive Line where
  | encA | encB | pwIn | lidEnc | lidIdx | rfRdy
  deriving DecidableEq, Repr, Inhabited

/-- One level per input line: `lvl[L]` of R62. RF_RDY, which R62 marks as a line of the I2C backend only (R232: five
or six lines), is a line under either backend (DESIGN CHOICE, log 28). -/
structure Levels where
  encA : Bit
  encB : Bit
  pwIn : Bit
  lidEnc : Bit
  lidIdx : Bit
  rfRdy : Bit
  deriving DecidableEq, Repr, Inhabited

/-- The `L=v` operands of RESET (R88): the draws `lvl0[L]` of R250; none is a draw that is not written. -/
structure LevelDraws where
  encA : Option Bit
  encB : Option Bit
  pwIn : Option Bit
  lidEnc : Option Bit
  lidIdx : Option Bit
  rfRdy : Option Bit
  deriving DecidableEq, Repr, Inhabited

/-- The calibration codes `(a, m, g, sy)` of R44. -/
structure Cal where
  a : Code
  m : Code
  g : Code
  sy : Code
  deriving DecidableEq, Repr, Inhabited

/-- The quaternion `(w, x, y, z)` of R44. -/
structure Quat where
  w : Half
  x : Half
  y : Half
  z : Half
  deriving DecidableEq, Repr, Inhabited

/-- A record of `PortRead(ORI.sample)` (R66). -/
structure OriSample where
  cal : Cal
  quat : Quat
  deriving DecidableEq, Repr, Inhabited

/-- The nine command operations, which the value of a received byte selects (R81 c, R180). -/
inductive Command where
  | kpUp | kpDn | kiUp | kiDn | kdUp | kdDn
  | digit (d : Digit)
  | commit
  | status
  deriving DecidableEq, Repr, Inhabited

/-- The operations of R80 and the four environment steps, with the operands of R88. -/
inductive Instr where
  -- reset (70:R250): the draws of the LED and of the line levels, each optional (R88)
  | reset (led0 : Option Bit) (lvl0 : LevelDraws)
  -- interrupt handlers (R100, R101, R110, R111, R120, R121)
  | qaRise | qbEdge | pwRise | pwFall | leTick | liIndex
  -- smoother (R130, R131)
  | smSeed (y : NumV)
  | smUpdate (y : NumV)
  -- PID entry points (R161, R163, R165, R166)
  | pidInit (lo hi t : NumV)
  | pidUpdate (y : NumV)
  | pidSetpid (p i d : NumV)
  | pidSetpoint (v : NumV)
  -- loop phases (R143 to R148): the draws of the ports they read; S4_RANGE's stand there with the I2C backend (R88)
  | s1Sample (y : NumV)
  | s2Serial
  | s3Control
  | s4Range (rdy : Option Bit) (d : Option Word)
  | s5Orient (o : OriSample)
  | s6Emit
  -- emission micro-steps (R202, R203)
  | emOdo
  | emSend
  -- startup steps (R252 to R261)
  | st1 | st2 | st3 | st4
  | st5 (r : Bit)
  | st6 | st7
  | st8 (y : NumV)
  | st9 (b : Bit)
  | st10
  -- environment steps (R217, R218, R228, R229)
  | envEdge (l : Line)
  | envRx (b : Byte)
  | envMs (n : Nat)
  | envUs (n : Nat)
  -- command operations (R181 to R189)
  | cmdKpUp | cmdKpDn | cmdKiUp | cmdKiDn | cmdKdUp | cmdKdDn
  | cmdDigit (d : Digit)
  | cmdCommit
  | cmdStatus
  deriving DecidableEq, Repr, Inhabited

/-- One line of a trace (R87): a format-T word, or, in unit vectors, a command operation, which has no
format-T identifier (R89) and stands as its format-B byte. -/
inductive TraceLine where
  | word (bytes : List Byte)
  | command (b : Byte)
  deriving DecidableEq, Repr, Inhabited

end Sys2Proof
end

