-- ==== Sys2Proof/Config.lean ====
section
/-! DEFINITION. The implementation parameters of 00:R6 as one configuration record, their default column,
and the free values: what the spec leaves open and the model leaves without a value. -/

namespace Sys2Proof

/-- `NUMERIC` (R11, 93:U1). -/
inductive Numeric where
  | exact | binary32 | binary64
  deriving DecidableEq, Repr, Inhabited

/-- `POS_OVERFLOW` (R102). -/
inductive PosOverflow where
  | wrap | fault
  deriving DecidableEq, Repr, Inhabited

/-- `EMPTY_COMMIT` (R188). -/
inductive EmptyCommit where
  | zero | ignore
  deriving DecidableEq, Repr, Inhabited

/-- `RANGE_BACKEND` (R6, 92:D24). -/
inductive RangeBackend where
  | pwm | i2c
  deriving DecidableEq, Repr, Inhabited

/-- The parameters of R6 that are values. The widths POS_BITS, US_BITS, CNT_BITS, MS_BITS are the types of the
fields of State (32 bits each); TORN_READS is false wherever `wordBits` is at least 32 (R73, log 26). -/
structure Params where
  alpha : NumV
  timestepMs : Nat
  ts : NumV
  tpr : Nat
  kp0 : NumV
  ki0 : NumV
  kd0 : NumV
  setpoint0 : NumV
  minOut : NumV
  maxOut : NumV
  pwmPeriodUs : Nat
  throttleDuty : NumV
  /-- `BAUD`: timing only, no rule reads it (R281). -/
  baud : Nat
  /-- `BLINK_MS`: timing only, no rule reads it (R256 c). -/
  blinkMs : Nat
  readyDiagN : Nat
  cmdBufMax : Nat
  wordBits : Nat
  numeric : Numeric
  posOverflow : PosOverflow
  emptyCommit : EmptyCommit
  rangeBackend : RangeBackend
  lidarAttached : Bool
  pidTuner : Bool
  deriving DecidableEq, Repr, Inhabited

/-- `SETPOINT0` (R6: OPEN, any value; 92:D10). A claim holds for every value. FREE VALUE, log 3. -/
opaque Config.openSetpoint0 : NumV

/-- The step some agent takes at the n-th point where no trace fixes it, with its draws (R9: the spec fixes
no schedule). FREE VALUE, log 4. -/
opaque Config.choice : Nat → Instr

/-- `PortRead(ADC)` at the n-th free choice, before it is brought into [0,1] (R63). FREE VALUE, log 5. -/
opaque Config.adcSample : Nat → NumV

/-- `PortRead(ORI.ready)` at the n-th free choice (R66). FREE VALUE, log 5. -/
opaque Config.oriReady : Nat → Bit

/-- `PortRead(ORI.sample)` at the n-th free choice (R66). FREE VALUE, log 5. -/
opaque Config.oriSample : Nat → OriSample

/-- `led0` of a RESET that does not write it (R88: arbitrary), at the n-th free choice. FREE VALUE, log 2. -/
opaque Config.resetLed : Nat → Bit

/-- `lvl0` of a RESET that does not write it (R88: arbitrary), at the n-th free choice. FREE VALUE, log 2. -/
opaque Config.resetLevels : Nat → Levels

/-- `PortRead(RF.distance)` at the n-th free choice (R67). FREE VALUE, log 5. -/
opaque Config.rfDistance : Nat → Word

/-- The operands a trace word does not give: the k-th operand of the word with these bytes, where the word ends before it
or its bytes are no value of its type. FREE VALUES, log 10. -/
opaque Config.openNum : List Byte → Nat → NumV
opaque Config.openBit : List Byte → Nat → Bit
opaque Config.openCode : List Byte → Nat → Code
opaque Config.openHalf : List Byte → Nat → Half
opaque Config.openByte : List Byte → Nat → Byte
opaque Config.openNat : List Byte → Nat → Nat
opaque Config.openLine : List Byte → Nat → Line

/-- The column "value" of R6. -/
def Params.default : Params where
  alpha := 3 / 10
  timestepMs := 25
  ts := 1 / 40
  tpr := 1346
  kp0 := 1 / 5
  ki0 := 50
  kd0 := 0
  setpoint0 := Config.openSetpoint0
  minOut := 0
  maxOut := 1
  pwmPeriodUs := 250
  throttleDuty := 0
  baud := 115200
  blinkMs := 100
  readyDiagN := 100
  cmdBufMax := 32
  wordBits := 32
  numeric := .exact
  posOverflow := .wrap
  emptyCommit := .zero
  rangeBackend := .pwm
  lidarAttached := true
  pidTuner := true

end Sys2Proof
end

