-- ==== Sys2Proof/WellFormed.lean ====
section
/-! DEFINITION. The draw predicates of 00:R13 on an instruction's operands. Digits, calibration codes, levels
and words carry their ranges in their types; the ADC sample of `S1_SAMPLE` and `ST8` is the one operand with
a predicate of its own (20:R63). The predicate is the environment's contract: its own steps keep it, and a trace line
that breaks it is decoded and runs, unclamped, as R63 says (log 21). -/

namespace Sys2Proof

/-- The contract of port ADC (R63): `0 <= y <= 1`. -/
def adcInRange (y : NumV) : Bool := decide (0 ≤ y) && decide (y ≤ 1)

/-- The operands of `i` are draws its rule admits. The operands of the `SM_*` and `PID_*` operations have no
predicate (R88, R161 to R166); `PID_INIT`'s conditions are its own refusal (R161). -/
def Instr.wellFormed : Instr → Bool
  | .s1Sample y => adcInRange y
  | .st8 y => adcInRange y
  | .reset _ _ => true
  | .qaRise => true
  | .qbEdge => true
  | .pwRise => true
  | .pwFall => true
  | .leTick => true
  | .liIndex => true
  | .smSeed _ => true
  | .smUpdate _ => true
  | .pidInit _ _ _ => true
  | .pidUpdate _ => true
  | .pidSetpid _ _ _ => true
  | .pidSetpoint _ => true
  | .s2Serial => true
  | .s3Control => true
  | .s4Range _ _ => true
  | .s5Orient _ => true
  | .s6Emit => true
  | .emOdo => true
  | .emSend => true
  | .st1 => true
  | .st2 => true
  | .st3 => true
  | .st4 => true
  | .st5 _ => true
  | .st6 => true
  | .st7 => true
  | .st9 _ => true
  | .st10 => true
  | .envEdge _ => true
  | .envRx _ => true
  | .envMs _ => true
  | .envUs _ => true
  | .cmdKpUp => true
  | .cmdKpDn => true
  | .cmdKiUp => true
  | .cmdKiDn => true
  | .cmdKdUp => true
  | .cmdKdDn => true
  | .cmdDigit _ => true
  | .cmdCommit => true
  | .cmdStatus => true

end Sys2Proof
end

