-- ==== Sys2Proof/Decode.lean ====
section
/-! DEFINITION. Decoding and encoding. Format B, the command byte, is the encoding of 30:R84. Format T is the
trace word of 30:R87 to R89: the identifier is the spec's, the operand list is typed by R88 and the spec gives
it no bits; its byte layout here is the model's (DESIGN CHOICE, log 10): a bit, a digit or a line name is one
byte, an optional bit is one byte (1 a written 0, 2 a written 1, others not written), an optional word is the byte 1 and
the word (or one other byte: not written), a half or a word is 2 or 4 bytes with the least significant first, a Nat is a
chain of 7-bit groups with the least significant first and bit 7 set on all but the last, a Num is its numerator (0, -1,
1, -2, ... numbered 0, 1, 2, 3, ...) and its denominator less 1, each as a Nat. Every word whose identifier is in R89 is
an instruction: an operand it does not give is a free value, and bytes after its operands mean nothing. -/

namespace Sys2Proof

/-- Why a trace line is no instruction: `refuse(unknown id)` (R86, R227). -/
inductive DecodeError where
  /-- The identifier is not in R89. -/
  | unknownId (id : Byte)
  /-- The line is empty: it has no identifier. -/
  | noId
  deriving DecidableEq, Repr, Inhabited

/-! ### Format B: the command byte (R83 to R86) -/

/-- The digit of a byte in 0x30..0x39: `b[3:0]` (R85). -/
def digitOf (b : Byte) : Digit := Fin.ofNat 10 (b.toNat - 0x30)

/-- `CMD(b)`, the byte table of R84 and R180: a range test on the byte, total. -/
def decodeCommand (b : Byte) : Command :=
  if 0x30 ≤ b.toNat ∧ b.toNat ≤ 0x39 then .digit (digitOf b)
  else if b = 0x70#8 then .kpUp
  else if b = 0x6C#8 then .kpDn
  else if b = 0x69#8 then .kiUp
  else if b = 0x6B#8 then .kiDn
  else if b = 0x64#8 then .kdUp
  else if b = 0x63#8 then .kdDn
  else if b = 0x0D#8 ∨ b = 0x0A#8 then .commit
  else .status

/-- The operation a command stands for. -/
def instrOfCommand : Command → Instr
  | .kpUp => .cmdKpUp
  | .kpDn => .cmdKpDn
  | .kiUp => .cmdKiUp
  | .kiDn => .cmdKiDn
  | .kdUp => .cmdKdUp
  | .kdDn => .cmdKdDn
  | .digit d => .cmdDigit d
  | .commit => .cmdCommit
  | .status => .cmdStatus

/-! ### Operand readers: an operand, none where the bytes give no value of its type, and the bytes after it -/

def readByte : List Byte → Option Byte × List Byte
  | [] => (none, [])
  | b :: r => (some b, r)

def readBit : List Byte → Option Bit × List Byte
  | [] => (none, [])
  | b :: r => (if b = 0#8 then some false else if b = 1#8 then some true else none, r)

/-- An operand R88 lets a trace leave out: none is one that is not written. -/
def readOptBit : List Byte → Option Bit × List Byte
  | [] => (none, [])
  | b :: r => (if b = 1#8 then some false else if b = 2#8 then some true else none, r)

/-- A code 0..3 (R44). -/
def readCode : List Byte → Option Code × List Byte
  | [] => (none, [])
  | b :: r => (if b.toNat < 4 then some (b.setWidth 2) else none, r)

def readHalf : List Byte → Option Half × List Byte
  | b0 :: b1 :: r => (some (BitVec.ofNat 16 (b0.toNat + 256 * b1.toNat)), r)
  | _ => (none, [])

def readWord : List Byte → Option Word × List Byte
  | b0 :: b1 :: b2 :: b3 :: r =>
    (some (BitVec.ofNat 32 (b0.toNat + 256 * b1.toNat + 65536 * b2.toNat + 16777216 * b3.toNat)), r)
  | _ => (none, [])

/-- A word a trace may leave out. -/
def readOptWord : List Byte → Option Word × List Byte
  | [] => (none, [])
  | b :: r => if b = 1#8 then readWord r else (none, r)

/-- A line name of R62, numbered in the order of its table. -/
def lineOf (n : Nat) : Option Line :=
  match n with
  | 0 => some .encA
  | 1 => some .encB
  | 2 => some .pwIn
  | 3 => some .lidEnc
  | 4 => some .lidIdx
  | 5 => some .rfRdy
  | _ => none

def readLine : List Byte → Option Line × List Byte
  | [] => (none, [])
  | b :: r => (lineOf b.toNat, r)

def readNat : List Byte → Option Nat × List Byte
  | [] => (none, [])
  | b :: r =>
    if b.toNat < 128 then (some b.toNat, r)
    else
      let (hi, rest) := readNat r
      (hi.map (fun h => b.toNat - 128 + 128 * h), rest)

/-- The integer numbered `n` in the order 0, -1, 1, -2, 2, ... -/
def intOfNat (n : Nat) : Int := if n % 2 = 0 then (n / 2 : Nat) else -((n / 2 : Nat) : Int) - 1

def readNum (bs : List Byte) : Option NumV × List Byte :=
  let (n, r) := readNat bs
  let (d, r) := readNat r
  (n.bind (fun n => d.map (fun d => mkRat (intOfNat n) (d + 1))), r)

/-- An operand, `free` where the word does not give it. -/
def orOpen {α : Type} (free : α) (x : Option α × List Byte) : α × List Byte := (x.1.getD free, x.2)

def readLevels (bs : List Byte) : LevelDraws × List Byte :=
  let (a, r) := readOptBit bs
  let (b, r) := readOptBit r
  let (p, r) := readOptBit r
  let (e, r) := readOptBit r
  let (x, r) := readOptBit r
  let (y, r) := readOptBit r
  (⟨a, b, p, e, x, y⟩, r)

/-- The first four operands of the word `w` of an `S5_ORIENT`. -/
def readCal (w bs : List Byte) : Cal × List Byte :=
  let (a, r) := orOpen (Config.openCode w 0) (readCode bs)
  let (m, r) := orOpen (Config.openCode w 1) (readCode r)
  let (g, r) := orOpen (Config.openCode w 2) (readCode r)
  let (sy, r) := orOpen (Config.openCode w 3) (readCode r)
  (⟨a, m, g, sy⟩, r)

/-- Its last four. -/
def readQuat (w bs : List Byte) : Quat × List Byte :=
  let (qw, r) := orOpen (Config.openHalf w 4) (readHalf bs)
  let (x, r) := orOpen (Config.openHalf w 5) (readHalf r)
  let (y, r) := orOpen (Config.openHalf w 6) (readHalf r)
  let (z, r) := orOpen (Config.openHalf w 7) (readHalf r)
  (⟨qw, x, y, z⟩, r)

/-! ### Format T: the trace word (R87 to R89) -/

/-- Is `b` an identifier of R89? -/
def isTraceId (b : Byte) : Bool :=
  decide (b.toNat ≤ 0x06) || decide (0x10 ≤ b.toNat ∧ b.toNat ≤ 0x11)
    || decide (0x20 ≤ b.toNat ∧ b.toNat ≤ 0x23) || decide (0x30 ≤ b.toNat ∧ b.toNat ≤ 0x37)
    || decide (0x40 ≤ b.toNat ∧ b.toNat ≤ 0x49) || decide (0x50 ≤ b.toNat ∧ b.toNat ≤ 0x53)

/-- The three Num operands of the word `w`, from the bytes `r`. -/
def readThree (w r : List Byte) : NumV × NumV × NumV :=
  let (a, r) := orOpen (Config.openNum w 0) (readNum r)
  let (b, r) := orOpen (Config.openNum w 1) (readNum r)
  let (c, _) := orOpen (Config.openNum w 2) (readNum r)
  (a, b, c)

/-- The instruction of the word `w`, whose identifier is `id` (R89) and whose operands (R88) stand in `r`. -/
def decodeOperands (id : Byte) (r : List Byte) : Except DecodeError Instr :=
  let w := id :: r
  match id.toNat with
  | 0x00 =>
    let (l, r) := readOptBit r
    .ok (.reset l (readLevels r).1)
  | 0x01 => .ok .qaRise
  | 0x02 => .ok .qbEdge
  | 0x03 => .ok .pwRise
  | 0x04 => .ok .pwFall
  | 0x05 => .ok .leTick
  | 0x06 => .ok .liIndex
  | 0x10 => .ok (.smSeed (orOpen (Config.openNum w 0) (readNum r)).1)
  | 0x11 => .ok (.smUpdate (orOpen (Config.openNum w 0) (readNum r)).1)
  | 0x20 =>
    let (lo, hi, t) := readThree w r
    .ok (.pidInit lo hi t)
  | 0x21 => .ok (.pidUpdate (orOpen (Config.openNum w 0) (readNum r)).1)
  | 0x22 =>
    let (p, i, d) := readThree w r
    .ok (.pidSetpid p i d)
  | 0x23 => .ok (.pidSetpoint (orOpen (Config.openNum w 0) (readNum r)).1)
  | 0x30 => .ok (.s1Sample (orOpen (Config.openNum w 0) (readNum r)).1)
  | 0x31 => .ok .s2Serial
  | 0x32 => .ok .s3Control
  | 0x33 =>
    let (rdy, r) := readOptBit r
    .ok (.s4Range rdy (readOptWord r).1)
  | 0x34 =>
    let (c, r) := readCal w r
    .ok (.s5Orient ⟨c, (readQuat w r).1⟩)
  | 0x35 => .ok .s6Emit
  | 0x36 => .ok .emOdo
  | 0x37 => .ok .emSend
  | 0x40 => .ok .st1
  | 0x41 => .ok .st2
  | 0x42 => .ok .st3
  | 0x43 => .ok .st4
  | 0x44 => .ok (.st5 (orOpen (Config.openBit w 0) (readBit r)).1)
  | 0x45 => .ok .st6
  | 0x46 => .ok .st7
  | 0x47 => .ok (.st8 (orOpen (Config.openNum w 0) (readNum r)).1)
  | 0x48 => .ok (.st9 (orOpen (Config.openBit w 0) (readBit r)).1)
  | 0x49 => .ok .st10
  | 0x50 => .ok (.envEdge (orOpen (Config.openLine w 0) (readLine r)).1)
  | 0x51 => .ok (.envRx (orOpen (Config.openByte w 0) (readByte r)).1)
  | 0x52 => .ok (.envMs (orOpen (Config.openNat w 0) (readNat r)).1)
  | 0x53 => .ok (.envUs (orOpen (Config.openNat w 0) (readNat r)).1)
  | _ => .error (.unknownId id)

/-- The trace reader on one line: every line is an instruction but one whose identifier is not in R89 (R86). -/
def decode : TraceLine → Except DecodeError Instr
  | .command b => .ok (instrOfCommand (decodeCommand b))
  | .word [] => .error .noId
  | .word (id :: r) => decodeOperands id r

/-! ### The encoder -/

/-- The byte that selects a command (R84). `CMD_COMMIT` has two bytes and `CMD_STATUS` 238: the encoder writes
CR and '?' (DESIGN CHOICE, log 12). -/
def commandByte : Command → Byte
  | .kpUp => 0x70#8
  | .kpDn => 0x6C#8
  | .kiUp => 0x69#8
  | .kiDn => 0x6B#8
  | .kdUp => 0x64#8
  | .kdDn => 0x63#8
  | .digit d => BitVec.ofNat 8 (0x30 + d.val)
  | .commit => 0x0D#8
  | .status => 0x3F#8

def bitBytes (b : Bit) : List Byte := [if b then 1#8 else 0#8]

def optBitBytes : Option Bit → List Byte
  | none => [0#8]
  | some b => [if b then 2#8 else 1#8]

def codeBytes (c : Code) : List Byte := [c.setWidth 8]

def halfBytes (h : Half) : List Byte := [h.extractLsb' 0 8, h.extractLsb' 8 8]

def wordBytes (w : Word) : List Byte :=
  [w.extractLsb' 0 8, w.extractLsb' 8 8, w.extractLsb' 16 8, w.extractLsb' 24 8]

def optWordBytes : Option Word → List Byte
  | none => [0#8]
  | some w => 1#8 :: wordBytes w

def lineByte : Line → Byte
  | .encA => 0#8
  | .encB => 1#8
  | .pwIn => 2#8
  | .lidEnc => 3#8
  | .lidIdx => 4#8
  | .rfRdy => 5#8

/-- The groups of `n`, at most `fuel` of them before the last. -/
def natGroups : Nat → Nat → List Byte
  | 0, n => [BitVec.ofNat 8 (n % 128)]
  | fuel + 1, n =>
    if n < 128 then [BitVec.ofNat 8 n]
    else BitVec.ofNat 8 (n % 128 + 128) :: natGroups fuel (n / 128)

def natBytes (n : Nat) : List Byte := natGroups n.log2 n

/-- The number of `z` in the order 0, -1, 1, -2, 2, ... -/
def natOfInt (z : Int) : Nat := if 0 ≤ z then 2 * z.toNat else 2 * (-z - 1).toNat + 1

def numBytes (q : NumV) : List Byte := natBytes (natOfInt q.num) ++ natBytes (q.den - 1)

def levelBytes (l : LevelDraws) : List Byte :=
  optBitBytes l.encA ++ optBitBytes l.encB ++ optBitBytes l.pwIn ++ optBitBytes l.lidEnc ++ optBitBytes l.lidIdx
    ++ optBitBytes l.rfRdy

def calBytes (c : Cal) : List Byte := codeBytes c.a ++ codeBytes c.m ++ codeBytes c.g ++ codeBytes c.sy

def quatBytes (q : Quat) : List Byte := halfBytes q.w ++ halfBytes q.x ++ halfBytes q.y ++ halfBytes q.z

/-- The trace line of an instruction: its identifier (R89) and operands, or its command byte (R84). -/
def encode : Instr → TraceLine
  | .reset l lv => .word (0x00#8 :: (optBitBytes l ++ levelBytes lv))
  | .qaRise => .word [0x01#8]
  | .qbEdge => .word [0x02#8]
  | .pwRise => .word [0x03#8]
  | .pwFall => .word [0x04#8]
  | .leTick => .word [0x05#8]
  | .liIndex => .word [0x06#8]
  | .smSeed y => .word (0x10#8 :: numBytes y)
  | .smUpdate y => .word (0x11#8 :: numBytes y)
  | .pidInit lo hi t => .word (0x20#8 :: (numBytes lo ++ numBytes hi ++ numBytes t))
  | .pidUpdate y => .word (0x21#8 :: numBytes y)
  | .pidSetpid p i d => .word (0x22#8 :: (numBytes p ++ numBytes i ++ numBytes d))
  | .pidSetpoint v => .word (0x23#8 :: numBytes v)
  | .s1Sample y => .word (0x30#8 :: numBytes y)
  | .s2Serial => .word [0x31#8]
  | .s3Control => .word [0x32#8]
  | .s4Range rdy d => .word (0x33#8 :: (optBitBytes rdy ++ optWordBytes d))
  | .s5Orient o => .word (0x34#8 :: (calBytes o.cal ++ quatBytes o.quat))
  | .s6Emit => .word [0x35#8]
  | .emOdo => .word [0x36#8]
  | .emSend => .word [0x37#8]
  | .st1 => .word [0x40#8]
  | .st2 => .word [0x41#8]
  | .st3 => .word [0x42#8]
  | .st4 => .word [0x43#8]
  | .st5 r => .word (0x44#8 :: bitBytes r)
  | .st6 => .word [0x45#8]
  | .st7 => .word [0x46#8]
  | .st8 y => .word (0x47#8 :: numBytes y)
  | .st9 b => .word (0x48#8 :: bitBytes b)
  | .st10 => .word [0x49#8]
  | .envEdge l => .word [0x50#8, lineByte l]
  | .envRx b => .word [0x51#8, b]
  | .envMs n => .word (0x52#8 :: natBytes n)
  | .envUs n => .word (0x53#8 :: natBytes n)
  | .cmdKpUp => .command (commandByte .kpUp)
  | .cmdKpDn => .command (commandByte .kpDn)
  | .cmdKiUp => .command (commandByte .kiUp)
  | .cmdKiDn => .command (commandByte .kiDn)
  | .cmdKdUp => .command (commandByte .kdUp)
  | .cmdKdDn => .command (commandByte .kdDn)
  | .cmdDigit d => .command (commandByte (.digit d))
  | .cmdCommit => .command (commandByte .commit)
  | .cmdStatus => .command (commandByte .status)

/-! ### Words of spec/opcode_table.json -/

/-- `n` bytes of the number `w`, the least significant first. -/
def bytesOfNat : Nat → Nat → List Byte
  | 0, _ => []
  | n + 1, w => BitVec.ofNat 8 w :: bytesOfNat n (w / 256)

/-- The bytes of a table word: its low `nbits` bits, zeros above them up to 16 bytes. -/
def tableBytes (nbits w : Nat) : List Byte := bytesOfNat 16 (w % 2 ^ nbits)

/-- The trace line a table word stands for. One byte value may be a format-T identifier and a command byte
(0x30 is `S1_SAMPLE` and the digit '0'); the word is read as a trace word where R89 lists its first byte, and
as a command byte otherwise (DESIGN CHOICE, log 11). -/
def tableLine (nbits w : Nat) : TraceLine :=
  match tableBytes nbits w with
  | [] => .word []
  | b :: r => if isTraceId b then .word (b :: r) else .command b

def decodeTableWord (nbits w : Nat) : Option Instr := (decode (tableLine nbits w)).toOption

/-! ### Pseudo-operations of a trace (R87) -/

/-- `RXS "…"`: one `ENV_RX` per byte, in order. -/
def rxs (bytes : List Byte) : List Instr := bytes.map .envRx

/-- `CYCLE y` with the orientation draw `o`: one loop pass with no interleaved handler; `emits` says whether the
guard of S6 passes. R87 expands it to an S4_RANGE without operands, which is what stands here: with the I2C backend
its ports then answer as log 19 says (DESIGN CHOICE). R87 also writes an operand `t` for S6_EMIT, where R88 and R148 give
it none: the S6_EMIT here has none and reads `ms_clock` (DESIGN CHOICE, log 31). -/
def cycle (y : NumV) (o : OriSample) (emits : Bool) : List Instr :=
  [.s1Sample y, .s2Serial, .s3Control, .s4Range none none, .s5Orient o, .s6Emit]
    ++ (if emits then [.emOdo, .emSend] else [])

end Sys2Proof
end

