-- ==== Sys2Proof/Machine/State.lean ====
section
/-! DEFINITION. The state of the core (10_state.md, summary R53), the reasons a step can stop (60:R227), and the
state after reset (70:R250). A field whose reset value the spec gives as *none* holds no value until an
operation writes it (10_state.md introduction): none is the spec's own reset value, and an Option is how the model
writes it (log 1). -/

namespace Sys2Proof.Machine

/-- The phase register's values (R40). -/
inductive Phase where
  | st1 | st2 | st3 | st4 | st5 | st6 | st7 | st8 | st9 | st10
  | s1 | s2 | s3 | s4 | s5 | s6
  deriving DecidableEq, Repr, Inhabited

/-- The emission sub-phases (R42). -/
inductive SubPhase where
  | idle | e1 | e2
  deriving DecidableEq, Repr, Inhabited

/-- One bit per interrupt source: `en[1..6]` and `pend[1..6]` (R48). -/
structure SourceBits where
  qaRise : Bit
  qbEdge : Bit
  pwRise : Bit
  pwFall : Bit
  leTick : Bit
  liIndex : Bit
  deriving DecidableEq, Repr, Inhabited

/-- The emission scratch record `em_rec` (R42); each field is none until it is written (log 17). -/
structure EmRec where
  t : Option Word
  sa : Option Int
  odo : Option Word
  deriving DecidableEq, Repr, Inhabited

/-- The content of a telemetry line (R201, R204). -/
structure Telem where
  t : Word
  cal : Cal
  quat : Quat
  sa : Int
  odo : Word
  r : Word
  b : Int
  deriving DecidableEq, Repr, Inhabited

/-- The content of a status line (R206). -/
structure StatusRec where
  kp : NumV
  ki : NumV
  kd : NumV
  integ : NumV
  ePrev : NumV
  setpoint : NumV
  output : NumV
  deriving DecidableEq, Repr, Inhabited

/-- The records of the output stream (R200). -/
inductive Record where
  | telem (x : Telem)
  | echo (d : Digit)
  | status (x : StatusRec)
  | diag
  deriving DecidableEq, Repr, Inhabited

/-- The fields a read of which can be `refuse(unwritten f)` (R53: reset value none, and read by some rule). -/
inductive Field where
  | s | kp | ki | kd | minOut | maxOut | ts | setpoint | cal | quat | emT | emSa | emOdo
  deriving DecidableEq, Repr, Inhabited

/-- The state: every field of R53 under its own name (`smooth` is the spec's `s`, `integ` its `I`), and three
fields of the model's own, last. -/
structure State where
  -- EncoderState (R21, R22)
  pos : Word
  prevB : Bit
  -- PulseCapture (R23 to R25)
  riseUs : Word
  widthUs : Word
  usClock : Word
  -- RotaryIndex (R26, R27)
  tickCount : Word
  lastFullRevCount : Word
  -- Smoother (R28)
  smooth : Option NumV
  -- PIDState (R29 to R35)
  kp : Option NumV
  ki : Option NumV
  kd : Option NumV
  minOut : Option NumV
  maxOut : Option NumV
  ts : Option NumV
  integ : NumV
  ePrev : NumV
  setpoint : Option NumV
  output : NumV
  -- CommandBuffer (R36)
  cmdBuf : List Digit
  -- LoopClock (R37 to R39)
  msClock : Word
  prevEmitMs : Word
  clkRun : Bit
  -- Foreground sequencer (R40 to R42)
  ph : Phase
  readyFail : Nat
  em : SubPhase
  emRec : EmRec
  -- Latches (R43, R44)
  rangeLatch : Word
  cal : Option Cal
  quat : Option Quat
  -- Outputs (R45 to R47); none is an undriven output
  steerDuty : Option NumV
  throttleDuty : Option NumV
  steerPeriodUs : Option Nat
  throttlePeriodUs : Option Nat
  led : Bit
  txLog : List Record
  -- Interrupt logic (R48)
  en : SourceBits
  pend : SourceBits
  -- Safety (R50)
  faulted : Bit
  -- Environment-owned (R62, R68)
  lvl : Levels
  rxFifo : List Byte
  /-- The MODEL's: the configuration record of R6; no step writes it (log 14). -/
  cfg : Params
  /-- The MODEL's: the trace lines still to be executed, next first (log 6). -/
  trace : List TraceLine
  /-- The MODEL's: the counter the free values are applied to; whatever takes one moves it on (log 2, 4, 5). -/
  choices : Nat
  deriving DecidableEq, Repr

/-- The faults: none. The core traps nowhere (R225), a handler cannot fault (R222), and the one
`fault(pos_overflow)` of R227 is a next state with `faulted` set (R50, log 13). -/
inductive Fault where
  deriving DecidableEq, Repr

/-- Why a step is refused: the spec gives the situation no meaning (R14). -/
inductive Refusal where
  /-- `exec`'s arm of an instruction without a meaning. Raised by nothing in this model. Safe. -/
  | notModelled (mnemonic : String)
  /-- `refuse(bad_config)` (R7, R227): raised by the step where the configuration is outside R7. Safe. -/
  | badConfig
  /-- `refuse(bad_pid_config)` (R161, R227): raised by `PID_INIT` with `lo > hi` or `t <= 0`. Safe. -/
  | badPidConfig
  /-- `refuse(unwritten f)` (R14, R162, R227): raised by any operation that reads `f` while it is none, and by
  a PID entry point before `PID_INIT`. Safe. -/
  | unwritten (f : Field)
  /-- Raised by a meaning whose operation is not enabled: its agent has no such step (R81, R219, R228, R229,
  R143 to R149, R252 to R261; log 8). Safe. -/
  | notEnabled
  /-- `refuse(unknown id)` (R86, R227): raised by the trace reader on a line whose identifier is not in R89, and on one
  that has none. Safe. -/
  | unknownId (e : DecodeError)
  /-- Raised by Num arithmetic where the result is no number: an overflow of a float NUMERIC (93:U1: refuse), or
  a zero divisor, which R11 rules out (log 15, 23). Safe. -/
  | notANumber
  deriving DecidableEq, Repr

/-- The outcome of one step. -/
abbrev Out := Host.Outcome State Fault Refusal

/-- The state right after reset (R53, R250), with the parameters of R6. `led` and the line levels are draws of
`RESET`; here they are 0 (DESIGN CHOICE, unsafe, log 2). -/
def State.reset : State where
  pos := 0#32
  prevB := false
  riseUs := 0#32
  widthUs := 0#32
  usClock := 0#32
  tickCount := 0#32
  lastFullRevCount := 0#32
  smooth := none
  kp := none
  ki := none
  kd := none
  minOut := none
  maxOut := none
  ts := none
  integ := 0
  ePrev := 0
  setpoint := none
  output := 0
  cmdBuf := []
  msClock := 0#32
  prevEmitMs := 0#32
  clkRun := false
  ph := .st1
  readyFail := 0
  em := .idle
  emRec := ⟨none, none, none⟩
  rangeLatch := 0#32
  cal := none
  quat := none
  steerDuty := none
  throttleDuty := none
  steerPeriodUs := none
  throttlePeriodUs := none
  led := false
  txLog := []
  en := ⟨false, false, false, false, false, false⟩
  pend := ⟨false, false, false, false, false, false⟩
  faulted := false
  lvl := ⟨false, false, false, false, false, false⟩
  rxFifo := []
  cfg := Params.default
  trace := []
  choices := 0

end Sys2Proof.Machine
end

