-- ==== Sys2Proof/Machine/Operands.lean ====
section
/-! DEFINITION. Operand values: Num arithmetic under every NUMERIC (R11, 93:U1), clamp, the bit fields indexed by
source and by line, the modular and wrapping integers (R10, R102, R112, R122), the value of a digit buffer
(R191), the bearing (R123). -/

namespace Sys2Proof.Machine

/-! ### Num (R11; 93:U1 and log 15 for the float systems) -/

/-- `2 ^ k` for an integer `k`. -/
def pow2 : Int → NumV
  | .ofNat n => ((2 ^ n : Nat) : NumV)
  | .negSucc n => mkRat 1 (2 ^ (n + 1))

/-- The exponent `e` with `2^e <= a < 2^(e+1)`, for `a > 0`. -/
def binExponent (a : NumV) : Int :=
  let k : Int := (a.num.toNat.log2 : Int) - (a.den.log2 : Int)
  if pow2 k ≤ a then k else k - 1

/-- The integer nearest `m`, the even one of two equally near (`m >= 0`). -/
def nearestEven (m : NumV) : Int :=
  let f := m.floor
  let r := m - f
  if r < 1 / 2 then f else if 1 / 2 < r then f + 1 else if f % 2 = 0 then f else f + 1

/-- IEEE 754 round-to-nearest-even into a binary system of precision `p` and exponents `emin..emax`; none where
the result is no finite number of the system. -/
def roundBinary (p : Nat) (emin emax : Int) (x : NumV) : Option NumV :=
  if x = 0 then some 0
  else
    let a := |x|
    let q := pow2 (max (binExponent a) emin - (p - 1))
    let v := nearestEven (a / q) * q
    if pow2 (emax + 1) ≤ v then none else some (if x < 0 then -v else v)

/-- The value of the system nearest an exact result (R11): the result itself where NUMERIC is exact. A result
that is no finite number of a float system is refused (93:U1). -/
def roundNum (nm : Numeric) (x : NumV) : Except Refusal NumV :=
  match nm with
  | .exact => .ok x
  | .binary32 =>
    match roundBinary 24 (-126) 127 x with
    | some v => .ok v
    | none => .error .notANumber
  | .binary64 =>
    match roundBinary 53 (-1022) 1023 x with
    | some v => .ok v
    | none => .error .notANumber

/-- A literal or a drawn Num: the nearest value of the system (93:U1). -/
def literal (nm : Numeric) (x : NumV) : Except Refusal NumV := roundNum nm x

def addNum (nm : Numeric) (a b : NumV) : Except Refusal NumV := roundNum nm (a + b)

def subNum (nm : Numeric) (a b : NumV) : Except Refusal NumV := roundNum nm (a - b)

def mulNum (nm : Numeric) (a b : NumV) : Except Refusal NumV := roundNum nm (a * b)

/-- Division. A zero divisor never occurs (R11); it is refused rather than given a value (log 23). -/
def divNum (nm : Numeric) (a b : NumV) : Except Refusal NumV :=
  if b = 0 then .error .notANumber else roundNum nm (a / b)

/-- `clamp(v, lo, hi)` of R11. -/
def clamp (v lo hi : NumV) : NumV := if v < lo then lo else if hi < v then hi else v

/-! ### Fields indexed by source and by line -/

/-- Bit k of `en` or `pend` (R48). -/
def getSource (b : SourceBits) : Source → Bit
  | .qaRise => b.qaRise
  | .qbEdge => b.qbEdge
  | .pwRise => b.pwRise
  | .pwFall => b.pwFall
  | .leTick => b.leTick
  | .liIndex => b.liIndex

/-- `en` or `pend` with bit k replaced. -/
def setSource (b : SourceBits) (k : Source) (v : Bit) : SourceBits :=
  match k with
  | .qaRise => { b with qaRise := v }
  | .qbEdge => { b with qbEdge := v }
  | .pwRise => { b with pwRise := v }
  | .pwFall => { b with pwFall := v }
  | .leTick => { b with leTick := v }
  | .liIndex => { b with liIndex := v }

/-- `lvl[L]` (R62). -/
def getLevel (b : Levels) : Line → Bit
  | .encA => b.encA
  | .encB => b.encB
  | .pwIn => b.pwIn
  | .lidEnc => b.lidEnc
  | .lidIdx => b.lidIdx
  | .rfRdy => b.rfRdy

/-- The written draw of a line, if RESET writes it (R88). -/
def getDraw (b : LevelDraws) : Line → Option Bit
  | .encA => b.encA
  | .encB => b.encB
  | .pwIn => b.pwIn
  | .lidEnc => b.lidEnc
  | .lidIdx => b.lidIdx
  | .rfRdy => b.rfRdy

/-- The drawn levels: those that are written, and the level `free` has for each of the others (R88). -/
def drawnLevels (b : LevelDraws) (free : Levels) : Levels where
  encA := b.encA.getD free.encA
  encB := b.encB.getD free.encB
  pwIn := b.pwIn.getD free.pwIn
  lidEnc := b.lidEnc.getD free.lidEnc
  lidIdx := b.lidIdx.getD free.lidIdx
  rfRdy := b.rfRdy.getD free.rfRdy

/-- The levels with one line toggled (R217). -/
def toggleLevel (b : Levels) : Line → Levels
  | .encA => { b with encA := !b.encA }
  | .encB => { b with encB := !b.encB }
  | .pwIn => { b with pwIn := !b.pwIn }
  | .lidEnc => { b with lidEnc := !b.lidEnc }
  | .lidIdx => { b with lidIdx := !b.lidIdx }
  | .rfRdy => { b with rfRdy := !b.rfRdy }

/-! ### Integers -/

/-- `2^31 - 1`, the upper limit of `pos` (R102). -/
def posMax : Word := 0x7FFFFFFF#32

/-- `-2^31`, the lower limit of `pos` (R102). -/
def posMin : Word := 0x80000000#32

/-- The count of one A-rise: up where the cached B level is 0, else down (R100). Two's complement addition is
`wrapS<32>` of R102. -/
def countPos (prevB : Bit) (p : Word) : Word := if prevB then p - 1#32 else p + 1#32

/-- The count would pass a limit of `pos` (R102). -/
def countAtLimit (prevB : Bit) (p : Word) : Bool := if prevB then p == posMin else p == posMax

/-- `value(ds)` of R191: most significant digit first, 0 for the empty list. -/
def digitsValue (ds : List Digit) : Nat := ds.foldl (fun v d => 10 * v + d.val) 0

/-- `bearing(tc)` of R123, in exact arithmetic. -/
def bearing (tpr : Nat) (tc : Word) : Int := (clamp ((tc.toNat : NumV) * 360 / (tpr : NumV)) 0 359).floor

end Sys2Proof.Machine
end

