-- ==== Sys2Proof/Machine/Flags.lean ====
section
/-! DEFINITION. The core has no flags and no condition codes (R51). The conditions its operations compute and
consume stand here: the anti-windup test of `PID_UPDATE` (R163), the edges that request an interrupt source
(R215, R217), the guard of the telemetry emission (R148). -/

namespace Sys2Proof.Machine

/-- `wind` of R163: the output is clamped and the sign of `e` alone drives `u` further outside. -/
def windup (u lo hi e : NumV) : Bool := (decide (hi < u) && decide (0 < e)) || (decide (u < lo) && decide (e < 0))

/-- The sources on a line whose edge matches its new level (R215, R217). -/
def edgeSources (l : Line) (level : Bit) : List Source :=
  match l with
  | .encA => if level then [.qaRise] else []
  | .encB => [.qbEdge]
  | .pwIn => if level then [.pwRise] else [.pwFall]
  | .lidEnc => if level then [.leTick] else []
  | .lidIdx => if level then [.liIndex] else []
  | .rfRdy => []

/-- The guard of S6 (R148): the subtraction is modulo 2^32, the comparison `>=`. -/
def emissionDue (now prev : Word) (timestepMs : Nat) : Bool := decide (timestepMs ≤ (now - prev).toNat)

end Sys2Proof.Machine
end

