-- ==== Sys2Proof/Machine/Ops.lean ====
section
/-! DEFINITION. The operations the meanings share: the configuration check (R7), a read of a field that may be
unwritten (R14), the output stream (R200), the ports (20_memory.md), taking an interrupt (R219, R221), and the
frame of a foreground micro-step. The core has no memory (R60), no synchronous exception to take (R225) and no
return operation (R222); the handler step below is all it has of either. -/

namespace Sys2Proof.Machine

/-- The preconditions on the parameters (R7); a configuration outside them is `refuse(bad_config)` (R227). With a float
NUMERIC the tests are of the values the configuration holds, before any rounding (DESIGN CHOICE, log 30). -/
def paramsOk (c : Params) : Bool :=
  decide (0 < c.ts) && decide (0 < c.tpr) && decide (0 < c.alpha) && decide (c.alpha ≤ 1)
    && decide (c.minOut ≤ c.maxOut) && decide (2 ≤ c.cmdBufMax) && decide (32 ≤ c.wordBits)

/-- A meaning's outcome from the state or the refusal it computes. -/
def finish : Except Refusal State → Out
  | .ok s => .next s
  | .error r => .refused r

/-- The value of a field; where its value is none the operation that reads it is `refuse(unwritten f)`: the spec's own
stop (10_state.md introduction, R14, R227, 93:U16; by name in R131 and R162). -/
def need {α : Type} (x : Option α) (f : Field) : Except Refusal α :=
  match x with
  | some v => .ok v
  | none => .error (.unwritten f)

/-- `Emit(rec)` (R69, R200). -/
def emit (r : Record) (s : State) : State := { s with txLog := s.txLog ++ [r] }

/-- `ph <- p` (R13). -/
def goto (p : Phase) (s : State) : State := { s with ph := p }

/-- `PortRead(L)` for a digital line (R62). -/
def portLine (l : Line) (s : State) : Bit := getLevel s.lvl l

/-- `PortRead(CLK_MS)` (R70). -/
def portMs (s : State) : Word := s.msClock

/-- `PortRead(CLK_US)` (R70). -/
def portUs (s : State) : Word := s.usClock

/-- `pend[k] <- v`. -/
def writePend (k : Source) (v : Bit) (s : State) : State := { s with pend := setSource s.pend k v }

/-- A request of source k: latched where k is enabled, merged with a request already pending (R216, R217). -/
def request (k : Source) (s : State) : State := if getSource s.en k then writePend k true s else s

/-- Agent `ISR[k]` has a step (R219). -/
def handlerEnabled (k : Source) (s : State) : Bool := getSource s.pend k && getSource s.en k

/-- Taking interrupt k (R219, R221): `pend[k] <- 0` and the handler's body, in one atomic step. Nothing is saved
and no mode changes; the foreground goes on at the `ph` it had (R222). -/
def takeInterrupt (k : Source) (body : State → State) (s : State) : Out :=
  if handlerEnabled k s then .next (body (writePend k false s)) else .refused .notEnabled

/-- A foreground micro-step, which has a step only when `ph` names it (R40, R81). -/
def phaseStep (p : Phase) (body : State → Except Refusal State) (s : State) : Out :=
  if s.ph = p then finish (body s) else .refused .notEnabled

/-- A micro-step of phase S6, which `em` selects (R148, R149, R202, R203). -/
def emitStep (e : SubPhase) (body : State → Except Refusal State) (s : State) : Out :=
  if s.ph = .s6 ∧ s.em = e then finish (body s) else .refused .notEnabled

/-- A clock step of the environment, enabled while the timers run (R228, R229). -/
def clockStep (body : State → State) (s : State) : Out :=
  if s.clkRun then .next (body s) else .refused .notEnabled

end Sys2Proof.Machine
end

