-- ==== Sys2Proof/Machine/Environment.lean ====
section
/-! DEFINITION. The steps of the environment (60:R217, R218, R228, R229). -/

namespace Sys2Proof.Machine

/-- The line's level changes and each source whose edge matches is requested (R217). -/
def edgeState (l : Line) (s : State) : State :=
  let s1 := { s with lvl := toggleLevel s.lvl l }
  (edgeSources l (getLevel s1.lvl l)).foldl (fun t k => request k t) s1

/-- `ENV_EDGE L` (R217): always enabled, RF_RDY under either backend (DESIGN CHOICE, log 28). -/
def execEnvEdge (l : Line) (s : State) : Out := .next (edgeState l s)

/-- `ENV_RX b` (R218): always enabled; no interrupt. -/
def execEnvRx (b : Byte) (s : State) : Out := .next { s with rxFifo := s.rxFifo ++ [b] }

/-- `ENV_MS n` (R228): modulo 2^32. -/
def execEnvMs (n : Nat) (s : State) : Out :=
  clockStep (fun s => { s with msClock := s.msClock + BitVec.ofNat 32 n }) s

/-- `ENV_US n` (R229): modulo 2^32. -/
def execEnvUs (n : Nat) (s : State) : Out :=
  clockStep (fun s => { s with usClock := s.usClock + BitVec.ofNat 32 n }) s

end Sys2Proof.Machine
end

