-- ==== Sys2Proof/Machine/Smoother.lean ====
section
/-! DEFINITION. The exponential-moving-average smoother (43_smoother.md): `SM_SEED`, `SM_UPDATE`. -/

namespace Sys2Proof.Machine

/-- `s <- y` (R130). -/
def smSeed (y : NumV) (s : State) : Except Refusal State := do
  let y ← literal s.cfg.numeric y
  .ok { s with smooth := some y }

/-- `s <- (ALPHA · y) + ((1 − ALPHA) · s)`, operations in this order (R131). -/
def smUpdate (y : NumV) (s : State) : Except Refusal State := do
  let nm := s.cfg.numeric
  let old ← need s.smooth .s
  let y ← literal nm y
  let alpha ← literal nm s.cfg.alpha
  let p ← mulNum nm alpha y
  let c ← subNum nm 1 alpha
  let q ← mulNum nm c old
  let r ← addNum nm p q
  .ok { s with smooth := some r }

/-- `SM_SEED y` (R130). -/
def execSmSeed (y : NumV) (s : State) : Out := finish (smSeed y s)

/-- `SM_UPDATE y` (R131). -/
def execSmUpdate (y : NumV) (s : State) : Out := finish (smUpdate y s)

end Sys2Proof.Machine
end

