-- ==== Sys2Proof/Machine/Pid.lean ====
section
/-! DEFINITION. The incremental PID controller (45_pid.md): `PID_INIT`, `PID_UPDATE`, `PID_SETPID`,
`PID_SETPOINT`. -/

namespace Sys2Proof.Machine

/-- `PID_INIT lo, hi, t` (R161). -/
def pidInit (lo hi t : NumV) (s : State) : Except Refusal State := do
  let nm := s.cfg.numeric
  let lo ← literal nm lo
  let hi ← literal nm hi
  let t ← literal nm t
  if lo ≤ hi ∧ 0 < t then .ok { s with minOut := some lo, maxOut := some hi, ts := some t }
  else .error .badPidConfig

/-- The bounds and the sample period, which `PID_INIT` must have written before any other entry point (R162). -/
def pidReady (s : State) : Except Refusal (NumV × NumV × NumV) := do
  let lo ← need s.minOut .minOut
  let hi ← need s.maxOut .maxOut
  let t ← need s.ts .ts
  .ok (lo, hi, t)

/-- The integrator at the end of an update: rolled back by the written subtraction where `wind` (R163, R164). -/
def rollBack (nm : Numeric) (wind : Bool) (i1 et : NumV) : Except Refusal NumV :=
  if wind then subNum nm i1 et else .ok i1

/-- `PID_UPDATE y` (R163): `u` uses the updated integrator, the roll-back is the written subtraction (R164),
and the writes take effect together at the end. -/
def pidUpdate (y : NumV) (s : State) : Except Refusal State := do
  let nm := s.cfg.numeric
  let (lo, hi, t) ← pidReady s
  let kp ← need s.kp .kp
  let ki ← need s.ki .ki
  let kd ← need s.kd .kd
  let sp ← need s.setpoint .setpoint
  let y ← literal nm y
  let e ← subNum nm sp y
  let et ← mulNum nm e t
  let i1 ← addNum nm s.integ et
  let de ← subNum nm e s.ePrev
  let d ← divNum nm de t
  let pe ← mulNum nm kp e
  let ii ← mulNum nm ki i1
  let pi ← addNum nm pe ii
  let dd ← mulNum nm kd d
  let u ← addNum nm pi dd
  let i2 ← rollBack nm (windup u lo hi e) i1 et
  .ok { s with integ := i2, output := clamp u lo hi, ePrev := e }

/-- `PID_SETPID p, i, d` (R165): no range check; the integrator and the previous error stay. -/
def pidSetpid (p i d : NumV) (s : State) : Except Refusal State := do
  let nm := s.cfg.numeric
  let _ ← pidReady s
  let p ← literal nm p
  let i ← literal nm i
  let d ← literal nm d
  .ok { s with kp := some p, ki := some i, kd := some d }

/-- `PID_SETPOINT v` (R166): clamped into the output bounds. -/
def pidSetpoint (v : NumV) (s : State) : Except Refusal State := do
  let (lo, hi, _) ← pidReady s
  let v ← literal s.cfg.numeric v
  .ok { s with setpoint := some (clamp v lo hi) }

/-- `PID_INIT` (R161). -/
def execPidInit (lo hi t : NumV) (s : State) : Out := finish (pidInit lo hi t s)

/-- `PID_UPDATE` (R163). -/
def execPidUpdate (y : NumV) (s : State) : Out := finish (pidUpdate y s)

/-- `PID_SETPID` (R165). -/
def execPidSetpid (p i d : NumV) (s : State) : Out := finish (pidSetpid p i d s)

/-- `PID_SETPOINT` (R166). -/
def execPidSetpoint (v : NumV) (s : State) : Out := finish (pidSetpoint v s)

end Sys2Proof.Machine
end

