-- ==== Sys2Proof/Machine/Tuning.lean ====
section
/-! DEFINITION. The tuning command parser (46_command_parser.md): the nine `CMD_*` operations, each on the state
alone, and their dispatch from a command (R180), which phase S2 performs. -/

namespace Sys2Proof.Machine

/-- A gain operation: the current gains, one of them stepped, committed through `PID_SETPID` (R181 to R186). The
steps are decimal literals. -/
def stepGains (stepP stepI stepD : NumV → Except Refusal NumV) (s : State) : Except Refusal State := do
  let p ← need s.kp .kp
  let i ← need s.ki .ki
  let d ← need s.kd .kd
  let p ← stepP p
  let i ← stepI i
  let d ← stepD d
  pidSetpid p i d s

/-- A gain left as it is. -/
def keepGain (g : NumV) : Except Refusal NumV := .ok g

/-- A gain plus a literal step. -/
def raiseGain (nm : Numeric) (by_ : NumV) (g : NumV) : Except Refusal NumV := do
  let k ← literal nm by_
  addNum nm g k

/-- A gain minus a literal step. -/
def lowerGain (nm : Numeric) (by_ : NumV) (g : NumV) : Except Refusal NumV := do
  let k ← literal nm by_
  subNum nm g k

/-- `CMD_KP_UP` (R181). -/
def cmdKpUp (s : State) : Except Refusal State :=
  stepGains (raiseGain s.cfg.numeric (1 / 100)) keepGain keepGain s

/-- `CMD_KP_DN` (R182). -/
def cmdKpDn (s : State) : Except Refusal State :=
  stepGains (lowerGain s.cfg.numeric (1 / 100)) keepGain keepGain s

/-- `CMD_KI_UP` (R183). -/
def cmdKiUp (s : State) : Except Refusal State := stepGains keepGain (raiseGain s.cfg.numeric 1) keepGain s

/-- `CMD_KI_DN` (R184). -/
def cmdKiDn (s : State) : Except Refusal State := stepGains keepGain (lowerGain s.cfg.numeric 1) keepGain s

/-- `CMD_KD_UP` (R185). -/
def cmdKdUp (s : State) : Except Refusal State :=
  stepGains keepGain keepGain (raiseGain s.cfg.numeric (1 / 1000)) s

/-- `CMD_KD_DN` (R186). -/
def cmdKdDn (s : State) : Except Refusal State :=
  stepGains keepGain keepGain (lowerGain s.cfg.numeric (1 / 1000)) s

/-- `CMD_DIGIT d` (R187): a digit beyond the capacity is dropped and not echoed. -/
def cmdDigit (d : Digit) (s : State) : Except Refusal State :=
  if s.cmdBuf.length < s.cfg.cmdBufMax - 1 then .ok (emit (.echo d) { s with cmdBuf := s.cmdBuf ++ [d] })
  else .ok s

/-- `CMD_COMMIT` (R188): the value of the buffer over 1000, clamped into the bounds; the buffer is cleared. An
empty buffer commits 0, or nothing where EMPTY_COMMIT = ignore. -/
def cmdCommit (s : State) : Except Refusal State :=
  if s.cmdBuf = [] ∧ s.cfg.emptyCommit = .ignore then .ok s
  else do
    let v ← divNum s.cfg.numeric (digitsValue s.cmdBuf : NumV) 1000
    let s1 ← pidSetpoint v s
    .ok { s1 with cmdBuf := [] }

/-- `CMD_STATUS` (R189): the status record of the state it finds; nothing else changes. -/
def cmdStatus (s : State) : Except Refusal State := do
  let kp ← need s.kp .kp
  let ki ← need s.ki .ki
  let kd ← need s.kd .kd
  let sp ← need s.setpoint .setpoint
  .ok (emit (.status ⟨kp, ki, kd, s.integ, s.ePrev, sp, s.output⟩) s)

/-- Exactly one of the nine operations (R180). -/
def performCommand (c : Command) (s : State) : Except Refusal State :=
  match c with
  | .kpUp => cmdKpUp s
  | .kpDn => cmdKpDn s
  | .kiUp => cmdKiUp s
  | .kiDn => cmdKiDn s
  | .kdUp => cmdKdUp s
  | .kdDn => cmdKdDn s
  | .digit d => cmdDigit d s
  | .commit => cmdCommit s
  | .status => cmdStatus s

/-! The operations on a trace line of their own (R88): no byte is taken and `ph` stays (log 22). They are performed with
PID_TUNER = false too, where the parser is not present and the spec does not say what such a line does (DESIGN CHOICE,
log 29). -/

/-- `CMD_KP_UP` (R181). -/
def execCmdKpUp (s : State) : Out := finish (cmdKpUp s)

/-- `CMD_KP_DN` (R182). -/
def execCmdKpDn (s : State) : Out := finish (cmdKpDn s)

/-- `CMD_KI_UP` (R183). -/
def execCmdKiUp (s : State) : Out := finish (cmdKiUp s)

/-- `CMD_KI_DN` (R184). -/
def execCmdKiDn (s : State) : Out := finish (cmdKiDn s)

/-- `CMD_KD_UP` (R185). -/
def execCmdKdUp (s : State) : Out := finish (cmdKdUp s)

/-- `CMD_KD_DN` (R186). -/
def execCmdKdDn (s : State) : Out := finish (cmdKdDn s)

/-- `CMD_DIGIT d` (R187). -/
def execCmdDigit (d : Digit) (s : State) : Out := finish (cmdDigit d s)

/-- `CMD_COMMIT` (R188). -/
def execCmdCommit (s : State) : Out := finish (cmdCommit s)

/-- `CMD_STATUS` (R189). -/
def execCmdStatus (s : State) : Out := finish (cmdStatus s)

end Sys2Proof.Machine
end

