-- ==== Sys2Proof/Machine/Scheduler.lean ====
section
/-! DEFINITION. The loop phases `S1_SAMPLE` to `S6_EMIT` (44_scheduler.md). -/

namespace Sys2Proof.Machine

/-- `S1_SAMPLE` (R143). -/
def s1Sample (y : NumV) (s : State) : Except Refusal State := do
  let s1 ← smUpdate y s
  .ok (goto .s2 s1)

/-- `PortRead(RX.getc)` (R68): the oldest byte and the state without it, where a byte is readable. -/
def rxGetc (s : State) : Option (Byte × State) :=
  match s.rxFifo with
  | [] => none
  | b :: rest => some (b, { s with rxFifo := rest })

/-- `S2_SERIAL` (R144): at most one byte a cycle. -/
def s2Serial (s : State) : Except Refusal State :=
  if s.cfg.pidTuner then
    match rxGetc s with
    | none => .ok (goto .s3 s)
    | some (b, s1) => do
      let s2 ← performCommand (decodeCommand b) s1
      .ok (goto .s3 s2)
  else .ok (goto .s3 s)

/-- `S3_CONTROL` (R145): the update, then the duty. -/
def s3Control (s : State) : Except Refusal State := do
  let y ← need s.smooth .s
  let s1 ← pidUpdate y s
  .ok (goto .s4 { s1 with steerDuty := some s1.output })

/-- `PortRead(RF.distance)` (R67): the draw that is written, a free value where none is (log 5, 19), and the state
after the read; the counter passes the free value. -/
def portDistance (d : Option Word) (s : State) : Word × State :=
  match d with
  | some d => (d, s)
  | none => (Config.rfDistance s.choices, { s with choices := s.choices + 1 })

/-- The body of the I2C branch of R146: the distance is read where the data-ready line reads low (R62). -/
def latchDistance (d : Option Word) (s : State) : State :=
  if portLine .rfRdy s then s
  else
    let (v, s1) := portDistance d s
    { s1 with rangeLatch := v }

/-- `S4_RANGE` (R146). With the PWM backend operands are not there (R88) and are not read (log 19). With I2C the read of
RF_RDY returns the line's level (R62), which the operand of a trace line repeats (R88, log 9). -/
def s4Range (_rdy : Option Bit) (d : Option Word) (s : State) : Except Refusal State :=
  match s.cfg.rangeBackend with
  | .pwm => .ok (goto .s5 { s with rangeLatch := s.widthUs })
  | .i2c => .ok (goto .s5 (latchDistance d s))

/-- `S5_ORIENT` (R147). -/
def s5Orient (o : OriSample) (s : State) : Except Refusal State :=
  .ok (goto .s6 { s with cal := some o.cal, quat := some o.quat })

/-- `S6_EMIT` (R148): `ms_clock` is read once. -/
def s6Emit (s : State) : Except Refusal State :=
  let now := portMs s
  if emissionDue now s.prevEmitMs s.cfg.timestepMs then do
    let v ← need s.smooth .s
    let m ← mulNum s.cfg.numeric 1000 v
    .ok { s with prevEmitMs := now, emRec := { s.emRec with t := some now, sa := some m.floor }, em := .e1 }
  else .ok (goto .s1 s)

/-- `S1_SAMPLE y` (R143). -/
def execS1Sample (y : NumV) (s : State) : Out := phaseStep .s1 (s1Sample y) s

/-- `S2_SERIAL` (R144). -/
def execS2Serial (s : State) : Out := phaseStep .s2 s2Serial s

/-- `S3_CONTROL` (R145). -/
def execS3Control (s : State) : Out := phaseStep .s3 s3Control s

/-- `S4_RANGE` (R146). -/
def execS4Range (rdy : Option Bit) (d : Option Word) (s : State) : Out := phaseStep .s4 (s4Range rdy d) s

/-- `S5_ORIENT` (R147). -/
def execS5Orient (o : OriSample) (s : State) : Out := phaseStep .s5 (s5Orient o) s

/-- `S6_EMIT` (R148): enabled in phase S6 while no emission is under way. -/
def execS6Emit (s : State) : Out := emitStep .idle s6Emit s

end Sys2Proof.Machine
end

