-- ==== Sys2Proof/Machine/Startup.lean ====
section
/-! DEFINITION. The startup steps `ST1` to `ST10` (70:R252 to R261). -/

namespace Sys2Proof.Machine

/-- `ST1` (R252): the serial transport is out of scope, so only `ph` moves. -/
def st1 (s : State) : Except Refusal State := .ok (goto .st2 s)

/-- `ST2` (R253): `PortWrite(CLK.start, 1)`. -/
def st2 (s : State) : Except Refusal State := .ok (goto .st3 { s with clkRun := true })

/-- `ST3` (R254): bounds, gains, setpoint, in line order. -/
def st3 (s : State) : Except Refusal State := do
  let s1 ← pidInit s.cfg.minOut s.cfg.maxOut s.cfg.ts s
  let s2 ← pidSetpid s.cfg.kp0 s.cfg.ki0 s.cfg.kd0 s1
  let s3 ← pidSetpoint s.cfg.setpoint0 s2
  .ok (goto .st4 s3)

/-- `ST4` (R255): both writes go to opaque collaborators and change no core state (R66, R67). -/
def st4 (s : State) : Except Refusal State := .ok (goto .st5 s)

/-- `ST5` (R256), one readiness check with the draw `r`: the diagnostic is emitted at the READY_DIAG_N-th failure
only, and the retries go on. -/
def st5 (r : Bit) (s : State) : Except Refusal State :=
  if r then .ok (goto .st6 s)
  else
    let n := s.readyFail + 1
    let s1 := { s with readyFail := n, led := !s.led }
    .ok (if n = s.cfg.readyDiagN then emit .diag s1 else s1)

/-- `ST6` (R257). -/
def st6 (s : State) : Except Refusal State :=
  .ok (goto .st7 { s with steerPeriodUs := some s.cfg.pwmPeriodUs, throttlePeriodUs := some s.cfg.pwmPeriodUs })

/-- `ST7` (R258). -/
def st7 (s : State) : Except Refusal State := do
  let d ← literal s.cfg.numeric s.cfg.throttleDuty
  .ok (goto .st8 { s with throttleDuty := some d })

/-- `ST8` (R259): the first sample seeds the smoother. -/
def st8 (y : NumV) (s : State) : Except Refusal State := do
  let s1 ← smSeed y s
  .ok (goto .st9 s1)

/-- `ST9` (R260): the level of ENC_B is cached, which the read of the line returns (R62). The operand of a trace line
repeats it (R88, log 9). -/
def st9 (_b : Bit) (s : State) : Except Refusal State :=
  .ok (goto .st10 { s with prevB := portLine .encB s })

/-- The sources `ST10` enables (R215, R261); the others keep their bit. -/
def enableSources (c : Params) (e : SourceBits) : SourceBits :=
  { qaRise := true
    qbEdge := true
    pwRise := if c.rangeBackend = .pwm ∧ c.lidarAttached then true else e.pwRise
    pwFall := if c.rangeBackend = .pwm ∧ c.lidarAttached then true else e.pwFall
    leTick := if c.lidarAttached then true else e.leTick
    liIndex := if c.lidarAttached then true else e.liIndex }

/-- `ST10` (R261). -/
def st10 (s : State) : Except Refusal State := .ok (goto .s1 { s with en := enableSources s.cfg s.en })

/-- `ST1` (R252). -/
def execSt1 (s : State) : Out := phaseStep .st1 st1 s

/-- `ST2` (R253). -/
def execSt2 (s : State) : Out := phaseStep .st2 st2 s

/-- `ST3` (R254). -/
def execSt3 (s : State) : Out := phaseStep .st3 st3 s

/-- `ST4` (R255). -/
def execSt4 (s : State) : Out := phaseStep .st4 st4 s

/-- `ST5 r` (R256). -/
def execSt5 (r : Bit) (s : State) : Out := phaseStep .st5 (st5 r) s

/-- `ST6` (R257). -/
def execSt6 (s : State) : Out := phaseStep .st6 st6 s

/-- `ST7` (R258). -/
def execSt7 (s : State) : Out := phaseStep .st7 st7 s

/-- `ST8 y` (R259). -/
def execSt8 (y : NumV) (s : State) : Out := phaseStep .st8 (st8 y) s

/-- `ST9 b` (R260). -/
def execSt9 (b : Bit) (s : State) : Out := phaseStep .st9 (st9 b) s

/-- `ST10` (R261). -/
def execSt10 (s : State) : Out := phaseStep .st10 st10 s

end Sys2Proof.Machine
end

