-- ==== Sys2Proof/Machine/Agents.lean ====
section
/-! DEFINITION. Who moves next (00:R8, R9; 30:R81; 60:R219, R223). A trace in State fixes the order of the steps and
the draws (log 6). With no trace line left, any agent with an enabled step may take it, and the choice and the draws
are free values (log 4, 5): a statement about such a step holds for every schedule. -/

namespace Sys2Proof.Machine

/-- The agents of R8. -/
inductive Agent where
  | rst
  | isr (k : Source)
  | fg
  | env
  deriving DecidableEq, Repr, Inhabited

/-- The agent whose step an operation is (R8, opcode_table.json). The `SM_*`, `PID_*` and `CMD_*` operations are
performed inside foreground steps (R80) and are no step of an agent: none. -/
def agentOf : Instr → Option Agent
  | .reset _ _ => some .rst
  | .qaRise => some (.isr .qaRise)
  | .qbEdge => some (.isr .qbEdge)
  | .pwRise => some (.isr .pwRise)
  | .pwFall => some (.isr .pwFall)
  | .leTick => some (.isr .leTick)
  | .liIndex => some (.isr .liIndex)
  | .smSeed _ => none
  | .smUpdate _ => none
  | .pidInit _ _ _ => none
  | .pidUpdate _ => none
  | .pidSetpid _ _ _ => none
  | .pidSetpoint _ => none
  | .s1Sample _ => some .fg
  | .s2Serial => some .fg
  | .s3Control => some .fg
  | .s4Range _ _ => some .fg
  | .s5Orient _ => some .fg
  | .s6Emit => some .fg
  | .emOdo => some .fg
  | .emSend => some .fg
  | .st1 => some .fg
  | .st2 => some .fg
  | .st3 => some .fg
  | .st4 => some .fg
  | .st5 _ => some .fg
  | .st6 => some .fg
  | .st7 => some .fg
  | .st8 _ => some .fg
  | .st9 _ => some .fg
  | .st10 => some .fg
  | .envEdge _ => some .env
  | .envRx _ => some .env
  | .envMs _ => some .env
  | .envUs _ => some .env
  | .cmdKpUp => none
  | .cmdKpDn => none
  | .cmdKiUp => none
  | .cmdKiDn => none
  | .cmdKdUp => none
  | .cmdKdDn => none
  | .cmdDigit _ => none
  | .cmdCommit => none
  | .cmdStatus => none

/-- The handler bound to a source (R215). -/
def handlerOf : Source → Instr
  | .qaRise => .qaRise
  | .qbEdge => .qbEdge
  | .pwRise => .pwRise
  | .pwFall => .pwFall
  | .leTick => .leTick
  | .liIndex => .liIndex

/-- The phase that selects a foreground step (R40, R81 b). -/
def phaseOf : Instr → Option Phase
  | .st1 => some .st1
  | .st2 => some .st2
  | .st3 => some .st3
  | .st4 => some .st4
  | .st5 _ => some .st5
  | .st6 => some .st6
  | .st7 => some .st7
  | .st8 _ => some .st8
  | .st9 _ => some .st9
  | .st10 => some .st10
  | .s1Sample _ => some .s1
  | .s2Serial => some .s2
  | .s3Control => some .s3
  | .s4Range _ _ => some .s4
  | .s5Orient _ => some .s5
  | .s6Emit => some .s6
  | .emOdo => some .s6
  | .emSend => some .s6
  | .reset _ _ => none
  | .qaRise => none
  | .qbEdge => none
  | .pwRise => none
  | .pwFall => none
  | .leTick => none
  | .liIndex => none
  | .smSeed _ => none
  | .smUpdate _ => none
  | .pidInit _ _ _ => none
  | .pidUpdate _ => none
  | .pidSetpid _ _ _ => none
  | .pidSetpoint _ => none
  | .envEdge _ => none
  | .envRx _ => none
  | .envMs _ => none
  | .envUs _ => none
  | .cmdKpUp => none
  | .cmdKpDn => none
  | .cmdKiUp => none
  | .cmdKiDn => none
  | .cmdKdUp => none
  | .cmdKdDn => none
  | .cmdDigit _ => none
  | .cmdCommit => none
  | .cmdStatus => none

/-- The emission sub-phase that selects a step of S6 (R42, R148, R149). -/
def subPhaseOf : Instr → Option SubPhase
  | .s6Emit => some .idle
  | .emOdo => some .e1
  | .emSend => some .e2
  | _ => none

/-- The level a trace line writes for line `l`, where it writes one, is the level `l` has. -/
def lineAgrees (l : Line) (b : Option Bit) (s : State) : Bool := b.getD (portLine l s) == portLine l s

/-- A port read of a line returns the line's level (R62): in a step of the environment's choosing the operand that repeats
it agrees with it. -/
def portsAgree (i : Instr) (s : State) : Bool :=
  match i with
  | .st9 b => lineAgrees .encB (some b) s
  | .s4Range rdy _ => s.cfg.rangeBackend == .pwm || lineAgrees .rfRdy rdy s
  | _ => true

/-- The operation has a step in `s`: a foreground step where `ph` and `em` name it, a handler where it is pending
and enabled, a clock step while the timers run, the others always (R81, R217 to R219, R228, R229). -/
def enabled (i : Instr) (s : State) : Bool :=
  (match phaseOf i with | some p => s.ph == p | none => true)
    && (match subPhaseOf i with | some e => s.em == e | none => true)
    && (match agentOf i with | some (.isr k) => handlerEnabled k s | _ => true)
    && (match i with | .envMs _ => s.clkRun | .envUs _ => s.clkRun | _ => true)

/-- An agent may take `i` as its next step where no trace fixes it: it is an agent's step, its draws are draws its rule
admits, and it is enabled (R9). -/
def offered (i : Instr) (s : State) : Bool :=
  (agentOf i).isSome && i.wellFormed && enabled i s && portsAgree i s

/-- The foreground's next step (R141, R251), with free draws (R61). The ADC draw lies in [0,1] (R63). -/
def foreground (s : State) : Instr :=
  let n := s.choices
  match s.ph with
  | .st1 => .st1
  | .st2 => .st2
  | .st3 => .st3
  | .st4 => .st4
  | .st5 => .st5 (Config.oriReady n)
  | .st6 => .st6
  | .st7 => .st7
  | .st8 => .st8 (clamp (Config.adcSample n) 0 1)
  | .st9 => .st9 (portLine .encB s)
  | .st10 => .st10
  | .s1 => .s1Sample (clamp (Config.adcSample n) 0 1)
  | .s2 => .s2Serial
  | .s3 => .s3Control
  | .s4 => .s4Range none none
  | .s5 => .s5Orient (Config.oriSample n)
  | .s6 => match s.em with
    | .idle => .s6Emit
    | .e1 => .emOdo
    | .e2 => .emSend

/-- The step some agent takes where no trace fixes it: any offered step, the foreground's otherwise (it always has
one, R153). -/
def chosen (s : State) : Instr :=
  if offered (Config.choice s.choices) s then Config.choice s.choices else foreground s

/-- The next instruction and the state it runs in: the head of the trace, decoded, or the step an agent chooses. A
configuration outside R7 makes no machine, and a line whose identifier is not in R89 names no operation (R86, R227). -/
def fetch (s : State) : Except Refusal (Instr × State) :=
  if paramsOk s.cfg then
    match s.trace with
    | [] => .ok (chosen s, { s with choices := s.choices + 1 })
    | l :: rest =>
      match decode l with
      | .ok i => .ok (i, { s with trace := rest })
      | .error e => .error (.unknownId e)
  else .error .badConfig

/-- The selection of R81 that makes `i` the operation taken next: `ph` and `em` for a foreground step, the pending
and enable bits for a handler, `clk_run` for a clock step (log 7). -/
def selectFor (i : Instr) (s : State) : State :=
  let s1 := match phaseOf i with | some p => { s with ph := p } | none => s
  let s2 := match subPhaseOf i with | some e => { s1 with em := e } | none => s1
  let s3 := match agentOf i with
    | some (.isr k) => { s2 with pend := setSource s2.pend k true, en := setSource s2.en k true }
    | _ => s2
  match i with
  | .envMs _ => { s3 with clkRun := true }
  | .envUs _ => { s3 with clkRun := true }
  | _ => s3

/-- `s` with a table word as the next trace line, and its operation selected (log 7). -/
def placeWord (s : State) (nbits w : Nat) : State :=
  let s1 := { s with trace := tableLine nbits w :: s.trace }
  match decodeTableWord nbits w with
  | some i => selectFor i s1
  | none => s1

end Sys2Proof.Machine
end

