-- ==== Sys2Proof/Machine/Pulse.lean ====
section
/-! DEFINITION. Pulse-width capture (41_pulse_capture.md): `PW_RISE`, `PW_FALL`. -/

namespace Sys2Proof.Machine

/-- The body of handler 3 (R110). -/
def pwRiseBody (s : State) : State := { s with riseUs := portUs s }

/-- The body of handler 4 (R111): both writes use the clock read at the start; modulo 2^32 (R112). -/
def pwFallBody (s : State) : State := { s with widthUs := portUs s - s.riseUs, usClock := 0#32 }

/-- `PW_RISE` (R110, R219). -/
def execPwRise (s : State) : Out := takeInterrupt .pwRise pwRiseBody s

/-- `PW_FALL` (R111, R219). -/
def execPwFall (s : State) : Out := takeInterrupt .pwFall pwFallBody s

end Sys2Proof.Machine
end

