-- ==== Sys2Proof/Machine/Quadrature.lean ====
section
/-! DEFINITION. The quadrature decoder (40_quadrature_decoder.md): `QA_RISE`, `QB_EDGE`. -/

namespace Sys2Proof.Machine

/-- The write of `pos` by an A-rise (R100, R102). At a limit, POS_OVERFLOW = wrap wraps, and fault leaves `pos`
and sets `faulted` (R50, R222; log 13). -/
def countRise (s : State) : State :=
  if countAtLimit s.prevB s.pos && s.cfg.posOverflow == .fault then { s with faulted := true }
  else { s with pos := countPos s.prevB s.pos }

/-- The body of handler 1 (R100): the direction is the cached level's, and the LED toggles. -/
def qaRiseBody (s : State) : State :=
  let s1 := countRise s
  { s1 with led := !s1.led }

/-- The body of handler 2 (R101): the cached level toggles; the line is not read. -/
def qbEdgeBody (s : State) : State := { s with prevB := !s.prevB }

/-- `QA_RISE` (R100, R219). -/
def execQaRise (s : State) : Out := takeInterrupt .qaRise qaRiseBody s

/-- `QB_EDGE` (R101, R219). -/
def execQbEdge (s : State) : Out := takeInterrupt .qbEdge qbEdgeBody s

end Sys2Proof.Machine
end

