-- ==== Sys2Proof/Machine/Reset.lean ====
section
/-! DEFINITION. `RESET` (70:R250). -/

namespace Sys2Proof.Machine

/-- The reset values of R250 with the draws of the LED and the line levels; a draw that is not written is arbitrary
(R88): a free value, and the counter passes it (log 2). The parameters are no state of the core and the trace is not
the core's: both stay (log 14, 18). -/
def resetState (led0 : Option Bit) (lvl0 : LevelDraws) (s : State) : State :=
  { State.reset with
    led := led0.getD (Config.resetLed s.choices), lvl := drawnLevels lvl0 (Config.resetLevels s.choices)
    cfg := s.cfg, trace := s.trace, choices := s.choices + 1 }

/-- `RESET led0 lvl0` (R250). -/
def execReset (led0 : Option Bit) (lvl0 : LevelDraws) (s : State) : Out := .next (resetState led0 lvl0 s)

end Sys2Proof.Machine
end

