-- ==== Sys2Proof/Machine/Rotary.lean ====
section
/-! DEFINITION. The rotary-index counter (42_rotary_index.md): `LE_TICK`, `LI_INDEX`. -/

namespace Sys2Proof.Machine

/-- The body of handler 5 (R120): modulo 2^32, no upper limit (R122). -/
def leTickBody (s : State) : State := { s with tickCount := s.tickCount + 1#32 }

/-- The body of handler 6 (R121): the copy uses the value before the reset. -/
def liIndexBody (s : State) : State := { s with lastFullRevCount := s.tickCount, tickCount := 0#32 }

/-- `LE_TICK` (R120, R219). -/
def execLeTick (s : State) : Out := takeInterrupt .leTick leTickBody s

/-- `LI_INDEX` (R121, R219). -/
def execLiIndex (s : State) : Out := takeInterrupt .liIndex liIndexBody s

end Sys2Proof.Machine
end

