-- ==== Sys2Proof/Machine/Telemetry.lean ====
section
/-! DEFINITION. Telemetry (47_telemetry.md): the emission micro-steps `EM_ODO`, `EM_SEND`, and the text of the
records (R201, R205, R207). -/

namespace Sys2Proof.Machine

/-- `EM_ODO` (R202): one read of `pos`. -/
def emOdo (s : State) : Except Refusal State :=
  .ok { s with emRec := { s.emRec with odo := some s.pos }, em := .e2 }

/-- `b` of R203: the bearing of `tick_count`, or the constant 0 with the I2C rangefinder. -/
def telemBearing (s : State) : Int :=
  match s.cfg.rangeBackend with
  | .pwm => bearing s.cfg.tpr s.tickCount
  | .i2c => 0

/-- `EM_SEND` (R203): one read of `tick_count`, the line, and back to S1. -/
def emSend (s : State) : Except Refusal State := do
  let t ← need s.emRec.t .emT
  let cal ← need s.cal .cal
  let quat ← need s.quat .quat
  let sa ← need s.emRec.sa .emSa
  let odo ← need s.emRec.odo .emOdo
  .ok (goto .s1 { emit (.telem ⟨t, cal, quat, sa, odo, s.rangeLatch, telemBearing s⟩) s with em := .idle })

/-- `EM_ODO` (R202). -/
def execEmOdo (s : State) : Out := emitStep .e1 emOdo s

/-- `EM_SEND` (R203). -/
def execEmSend (s : State) : Out := emitStep .e2 emSend s

/-! ### Text of the records -/

/-- The character of a digit 0..9 (R207). -/
def digitChar (n : Nat) : Char := Char.ofNat (48 + n % 10)

/-- The decimal digits of `n`, most significant first, in front of `acc`; `fuel` digits at most. -/
def natDigits : Nat → Nat → List Char → List Char
  | 0, _, acc => acc
  | fuel + 1, n, acc =>
    if n < 10 then digitChar n :: acc else natDigits fuel (n / 10) (digitChar (n % 10) :: acc)

/-- Decimal, no leading zeros, `0` for zero (R205). -/
def natText (n : Nat) : List Char := natDigits (n.log2 + 1) n []

/-- Decimal with a leading `-` for negative values (R205). -/
def intText (z : Int) : List Char := if z < 0 then '-' :: natText z.natAbs else natText z.natAbs

/-- The telemetry line, CR LF included (R201). -/
def telemText (x : Telem) : List Char :=
  "t:".toList ++ natText x.t.toNat
    ++ ",AMGS:".toList ++ natText x.cal.a.toNat ++ natText x.cal.m.toNat ++ natText x.cal.g.toNat
    ++ natText x.cal.sy.toNat
    ++ ",qw:".toList ++ intText x.quat.w.toInt ++ ",qx:".toList ++ intText x.quat.x.toInt
    ++ ",qy:".toList ++ intText x.quat.y.toInt ++ ",qz:".toList ++ intText x.quat.z.toInt
    ++ ",sa:".toList ++ intText x.sa ++ ",odo:".toList ++ intText x.odo.toInt
    ++ ",r:".toList ++ natText x.r.toNat ++ ",b:".toList ++ intText x.b ++ ['\r', '\n']

/-- What the host receives for a record. The status line and the diagnostic have no text in the spec (R206,
R208, 93:U20): none (log 20). -/
def recordText : Record → Option (List Char)
  | .telem x => some (telemText x)
  | .echo d => some [digitChar d.val]
  | .status _ => none
  | .diag => none

end Sys2Proof.Machine
end

