-- ==== Sys2Proof/Machine/Dispatch.lean ====
section
/-! DEFINITION. One arm per operation: the meaning of each instruction. -/

namespace Sys2Proof.Machine

def exec (i : Instr) (s : State) : Host.Outcome State Fault Refusal :=
  match i with
  | .reset led0 lvl0 => Sys2Proof.Machine.execReset led0 lvl0 s
  | .qaRise => Sys2Proof.Machine.execQaRise s
  | .qbEdge => Sys2Proof.Machine.execQbEdge s
  | .pwRise => Sys2Proof.Machine.execPwRise s
  | .pwFall => Sys2Proof.Machine.execPwFall s
  | .leTick => Sys2Proof.Machine.execLeTick s
  | .liIndex => Sys2Proof.Machine.execLiIndex s
  | .smSeed y => Sys2Proof.Machine.execSmSeed y s
  | .smUpdate y => Sys2Proof.Machine.execSmUpdate y s
  | .pidInit lo hi t => Sys2Proof.Machine.execPidInit lo hi t s
  | .pidUpdate y => Sys2Proof.Machine.execPidUpdate y s
  | .pidSetpid p i_ d => Sys2Proof.Machine.execPidSetpid p i_ d s
  | .pidSetpoint v => Sys2Proof.Machine.execPidSetpoint v s
  | .s1Sample y => Sys2Proof.Machine.execS1Sample y s
  | .s2Serial => Sys2Proof.Machine.execS2Serial s
  | .s3Control => Sys2Proof.Machine.execS3Control s
  | .s4Range rdy d => Sys2Proof.Machine.execS4Range rdy d s
  | .s5Orient o => Sys2Proof.Machine.execS5Orient o s
  | .s6Emit => Sys2Proof.Machine.execS6Emit s
  | .emOdo => Sys2Proof.Machine.execEmOdo s
  | .emSend => Sys2Proof.Machine.execEmSend s
  | .st1 => Sys2Proof.Machine.execSt1 s
  | .st2 => Sys2Proof.Machine.execSt2 s
  | .st3 => Sys2Proof.Machine.execSt3 s
  | .st4 => Sys2Proof.Machine.execSt4 s
  | .st5 r => Sys2Proof.Machine.execSt5 r s
  | .st6 => Sys2Proof.Machine.execSt6 s
  | .st7 => Sys2Proof.Machine.execSt7 s
  | .st8 y => Sys2Proof.Machine.execSt8 y s
  | .st9 b => Sys2Proof.Machine.execSt9 b s
  | .st10 => Sys2Proof.Machine.execSt10 s
  | .envEdge l => Sys2Proof.Machine.execEnvEdge l s
  | .envRx b => Sys2Proof.Machine.execEnvRx b s
  | .envMs n => Sys2Proof.Machine.execEnvMs n s
  | .envUs n => Sys2Proof.Machine.execEnvUs n s
  | .cmdKpUp => Sys2Proof.Machine.execCmdKpUp s
  | .cmdKpDn => Sys2Proof.Machine.execCmdKpDn s
  | .cmdKiUp => Sys2Proof.Machine.execCmdKiUp s
  | .cmdKiDn => Sys2Proof.Machine.execCmdKiDn s
  | .cmdKdUp => Sys2Proof.Machine.execCmdKdUp s
  | .cmdKdDn => Sys2Proof.Machine.execCmdKdDn s
  | .cmdDigit d => Sys2Proof.Machine.execCmdDigit d s
  | .cmdCommit => Sys2Proof.Machine.execCmdCommit s
  | .cmdStatus => Sys2Proof.Machine.execCmdStatus s

end Sys2Proof.Machine
end

