-- ==== Sys2Proof/Machine/Step.lean ====
section
/-! DEFINITION. One atomic step of one agent (00:R8, 20:R76). -/

namespace Sys2Proof.Machine

/-- The next step: of the trace where one is placed, of any agent otherwise (R9). -/
def step (s : State) : Host.Outcome State Fault Refusal :=
  match fetch s with
  | .ok (i, s1) => exec i s1
  | .error r => .refused r

/-- `s` with the table word `w` of `nbits` bits as the next thing the machine runs (log 7). -/
def State.withFetchWord (s : State) (nbits w : Nat) : State := placeWord s nbits w

end Sys2Proof.Machine
end

