-- ==== Sys2Proof/Machine/Trace.lean ====
section
/-! DEFINITION. A trace executed top to bottom, each line one atomic step (30:R87). -/

namespace Sys2Proof.Machine

/-- The outcome of a list of instructions run in order from `s`, stopping at the first that has no next state. -/
def run : List Instr → State → Out
  | [], s => .next s
  | i :: is, s =>
    match exec i s with
    | .next t => run is t
    | .fault r => .fault r
    | .refused r => .refused r

end Sys2Proof.Machine
end

