-- ==== Sys2Proof/Safety.lean ====
section
/-! DEFINITION. What counts as a safe run: the good states (R50), the premises `NoOverrun` (60:R224) and weak fairness
(60:R220), and the invariant of every step, from which no operation of a run from reset reads an unwritten field (R225, R251). -/

namespace Sys2Proof.Machine

/-- A state with `faulted = 1` is never a good final state (R50). -/
def good (s : State) : Bool := !s.faulted

/-- The sources of the family of a line (R224): 1 and 2, 3 and 4, 5 and 6. -/
def familySources : Line → List Source
  | .encA => [.qaRise, .qbEdge]
  | .encB => [.qaRise, .qbEdge]
  | .pwIn => [.pwRise, .pwFall]
  | .lidEnc => [.leTick, .liIndex]
  | .lidIdx => [.leTick, .liIndex]
  | .rfRdy => []

/-- An edge arrives on a line while a request of its family still waits for its handler. -/
def overruns (i : Instr) (s : State) : Bool :=
  match i with
  | .envEdge l => (familySources l).any (fun k => getSource s.pend k)
  | _ => false

/-- The premise `NoOverrun` of R224 on a run: no step of it overruns. A premise a claim may take, not a property of
the core. -/
def noOverrun : List Instr → State → Bool
  | [], _ => true
  | i :: is, s =>
    !overruns i s &&
      match exec i s with
      | .next t => noOverrun is t
      | .fault _ => true
      | .refused _ => true

/-- A run of the core without end: `act n` is taken in `st n` and leads to `st (n + 1)`. The model's own trace and
counter are no state of the core, so a run may set them between two steps; the machine's own runs are among these. -/
def isRun (act : Nat → Instr) (st : Nat → State) : Prop :=
  ∀ n, ∃ (tr : List TraceLine) (c : Nat), exec (act n) { st n with trace := tr, choices := c } = .next (st (n + 1))

/-- The fairness the spec assumes of a run (R220, R153; log 25). -/
structure WeaklyFair (act : Nat → Instr) (st : Nat → State) : Prop where
  /-- A continuously pending enabled request is eventually served (R220). -/
  served : ∀ (k : Source) (n : Nat), (∀ m, n ≤ m → handlerEnabled k (st m) = true) →
    ∃ m, n ≤ m ∧ act m = handlerOf k
  /-- The foreground eventually takes its next step (R153). -/
  foregroundMoves : ∀ n, ∃ m, n ≤ m ∧ agentOf (act m) = some .fg

/-- What an operation adds to `us_clock` before the reduction modulo 2^32 (R229). -/
def usAdvance : Instr → Nat
  | .envUs n => n
  | _ => 0

/-- Over a run: the A-rises taken with `prev_b = 0` less those taken with `prev_b = 1` (R103). -/
def riseBalance : List Instr → State → Int
  | [], _ => 0
  | i :: is, s =>
    (if i = .qaRise then if s.prevB then -1 else 1 else 0) +
      match exec i s with
      | .next t => riseBalance is t
      | .fault _ => 0
      | .refused _ => 0

/-- Field `f` holds no value (10_state.md introduction). -/
def isUnwritten (f : Field) (s : State) : Bool :=
  match f with
  | .s => s.smooth.isNone
  | .kp => s.kp.isNone
  | .ki => s.ki.isNone
  | .kd => s.kd.isNone
  | .minOut => s.minOut.isNone
  | .maxOut => s.maxOut.isNone
  | .ts => s.ts.isNone
  | .setpoint => s.setpoint.isNone
  | .cal => s.cal.isNone
  | .quat => s.quat.isNone
  | .emT => s.emRec.t.isNone
  | .emSa => s.emRec.sa.isNone
  | .emOdo => s.emRec.odo.isNone

/-- Where a phase stands in the order of startup and loop (R141, R251). -/
def phaseRank : Phase → Nat
  | .st1 => 1
  | .st2 => 2
  | .st3 => 3
  | .st4 => 4
  | .st5 => 5
  | .st6 => 6
  | .st7 => 7
  | .st8 => 8
  | .st9 => 9
  | .st10 => 10
  | .s1 => 11
  | .s2 => 12
  | .s3 => 13
  | .s4 => 14
  | .s5 => 15
  | .s6 => 16

/-- What every step keeps (obligation `StepKeepsInv`). -/
structure StateInv (s : State) : Prop where
  /-- A request is latched only where its source is enabled (R216, R217). -/
  pendEnabled : ∀ k, getSource s.pend k = true → getSource s.en k = true
  /-- Sources are enabled by ST10, the last startup step (R216). -/
  enabledInLoop : ∀ k, getSource s.en k = true → 11 ≤ phaseRank s.ph
  /-- An emission is under way in S6 only (R148, R149). -/
  emissionInS6 : s.em ≠ .idle → s.ph = .s6
  /-- The command buffer leaves room for its terminator (R36). -/
  bufferBounded : s.cmdBuf.length ≤ s.cfg.cmdBufMax - 1
  /-- The output bounds are ordered (R30). -/
  boundsOrdered : ∀ lo hi, s.minOut = some lo → s.maxOut = some hi → lo ≤ hi
  /-- The sample period is positive (R31). -/
  periodPositive : ∀ t, s.ts = some t → 0 < t
  /-- ST3 has written the controller (R254). -/
  pidWritten : 4 ≤ phaseRank s.ph →
    s.minOut.isSome ∧ s.maxOut.isSome ∧ s.ts.isSome ∧ s.kp.isSome ∧ s.ki.isSome ∧ s.kd.isSome ∧ s.setpoint.isSome
  /-- ST8 has seeded the smoother (R259). -/
  seeded : 9 ≤ phaseRank s.ph → s.smooth.isSome
  /-- S5 has read the orientation sensor (R44, R147). -/
  sampled : s.ph = .s6 → s.cal.isSome ∧ s.quat.isSome
  /-- S6 has written the line's time and angle (R148). -/
  emissionBegun : s.em ≠ .idle → s.emRec.t.isSome ∧ s.emRec.sa.isSome
  /-- EM_ODO has read the odometer (R202). -/
  odometerRead : s.em = .e2 → s.emRec.odo.isSome
  /-- The timers run from ST2 on and stand at 0 before (R39, R253). -/
  timersRun : 3 ≤ phaseRank s.ph → s.clkRun = true
  timersStand : s.clkRun = false → s.msClock = 0#32 ∧ s.usClock = 0#32
  /-- The PWM periods stay what ST6 wrote (R257, R262). -/
  periodsSet : 7 ≤ phaseRank s.ph →
    s.steerPeriodUs = some s.cfg.pwmPeriodUs ∧ s.throttlePeriodUs = some s.cfg.pwmPeriodUs
  /-- The throttle is driven from ST7 on (R258, R262). -/
  throttleDriven : 8 ≤ phaseRank s.ph → s.throttleDuty.isSome

end Sys2Proof.Machine
end

