-- ==== Sys2Proof/Certificates/Slice0/Obligations.lean ====
section
/-! DEFINITION. The statements for the provers. Where an operation has one effect, its statement is the whole next
state: `{ s with … }` says what changes and that every other field stays. The core has no memory (R60), so no
statement speaks of memory. "exact" is NUMERIC = exact (R11). -/

open Sys2Proof Sys2Proof.Machine

/-! ## Encoding -/

/-- Decoding the encoding of an instruction gives it back, with every operand at every value, an ADC sample outside the
port's contract (R63) included. The byte layout of a trace word's operands is the model's choice (log 10), as are the
bytes of CMD_COMMIT and CMD_STATUS (log 12). -/
def Obligations.DecodeEncodeAgree : Prop :=
  ∀ i : Instr, decode (encode i) = .ok i

/-- R84: the byte table of the command byte, each operation with exactly its bytes; 238 bytes are `CMD_STATUS`. -/
def Obligations.CommandByteTable : Prop :=
  (∀ b : Byte,
    (decodeCommand b = .kpUp ↔ b = 0x70#8) ∧ (decodeCommand b = .kpDn ↔ b = 0x6C#8) ∧
    (decodeCommand b = .kiUp ↔ b = 0x69#8) ∧ (decodeCommand b = .kiDn ↔ b = 0x6B#8) ∧
    (decodeCommand b = .kdUp ↔ b = 0x64#8) ∧ (decodeCommand b = .kdDn ↔ b = 0x63#8) ∧
    (∀ d : Digit, decodeCommand b = .digit d ↔ b.toNat = 0x30 + d.val) ∧
    (decodeCommand b = .commit ↔ b = 0x0A#8 ∨ b = 0x0D#8)) ∧
  ((List.range 256).filter (fun n => decodeCommand (BitVec.ofNat 8 n) == .status)).length = 238

/-- Words written out from R84, R88 and R89 decode to the instructions they stand for; no word whose identifier is not
one of R89 decodes: it is refused as such (R86, R227), whatever follows the identifier; and every other word is an
instruction with that identifier, whatever follows it (the operand bytes and what stands for a missing operand are the
model's choice, log 10). -/
def Obligations.WrittenWordsDecode : Prop :=
  decode (.command 0x70#8) = .ok .cmdKpUp ∧
  decode (.command 0x37#8) = .ok (.cmdDigit 7) ∧
  decode (.command 0x0A#8) = .ok .cmdCommit ∧
  decode (.word [0x01#8]) = .ok .qaRise ∧
  decode (.word [0x31#8]) = .ok .s2Serial ∧
  decode (.word [0x48#8, 0x01#8]) = .ok (.st9 true) ∧
  decode (.word [0x50#8, 0x02#8]) = .ok (.envEdge .pwIn) ∧
  decode (.word [0x33#8]) = .ok (.s4Range none none) ∧
  (∀ (id : Byte) (r : List Byte),
    if (0x06 < id.toNat ∧ id.toNat < 0x10) ∨ (0x11 < id.toNat ∧ id.toNat < 0x20) ∨ (0x23 < id.toNat ∧ id.toNat < 0x30) ∨
      (0x37 < id.toNat ∧ id.toNat < 0x40) ∨ (0x49 < id.toNat ∧ id.toNat < 0x50) ∨ 0x53 < id.toNat then
      decode (.word (id :: r)) = .error (.unknownId id)
    else ∃ (i : Instr) (operands : List Byte),
      decode (.word (id :: r)) = .ok i ∧ encode i = .word (id :: operands))

/-! ## The step -/

/-- A step runs the decoded line: where the next trace line decodes to `i`, the step is `exec i` with the line
taken. -/
def Obligations.StepRunsTraceLine : Prop :=
  ∀ (s : State) (l : TraceLine) (rest : List TraceLine) (i : Instr),
    paramsOk s.cfg = true → s.trace = l :: rest → decode l = .ok i →
    step s = exec i { s with trace := rest }

/-- With no trace line left some agent moves: the step is `exec` of an instruction that is an agent's own step, is
well formed and is enabled (R9, R153; the free choice is log 4). -/
def Obligations.FreeStepIsOffered : Prop :=
  ∀ s : State, paramsOk s.cfg = true → s.trace = [] →
    ∃ i : Instr, (agentOf i).isSome = true ∧ i.wellFormed = true ∧ enabled i s = true ∧ portsAgree i s = true ∧
      step s = exec i { s with choices := s.choices + 1 }

/-- A trace runs as it is written (R87): as many steps as it has lines give the outcome of its instructions in
order, and leave the lines after it. The encoding of the lines is the model's (log 10). -/
def Obligations.TraceRunsAsWritten : Prop :=
  ∀ (is : List Instr) (s : State) (rest : List TraceLine),
    paramsOk s.cfg = true →
    Host.Core.run core is.length { s with trace := is.map encode ++ rest } = run is { s with trace := rest }

/-- R7: a configuration outside the preconditions is refused, and inside them no step is refused for it. With a float
NUMERIC the tests are of the unrounded values, which is the model's choice (log 30), as is where the check stands
(log 14). -/
def Obligations.BadConfigRefused : Prop :=
  ∀ s : State,
    step s = .refused .badConfig ↔
      (s.cfg.ts ≤ 0 ∨ s.cfg.tpr = 0 ∨ s.cfg.alpha ≤ 0 ∨ 1 < s.cfg.alpha ∨ s.cfg.maxOut < s.cfg.minOut ∨
        s.cfg.cmdBufMax < 2 ∨ s.cfg.wordBits < 32)

/-- An operation has no step exactly where it is not enabled, and the refusal then is `notEnabled` (the spec says
that there is no step, R81 and R219; that the model answers with a refusal is log 8). -/
def Obligations.RefusedExactlyWhenNotEnabled : Prop :=
  ∀ (i : Instr) (s : State), exec i s = .refused .notEnabled ↔ enabled i s = false

/-! ## Reset -/

/-- R250: every field of the core after `RESET`, from any state; the LED and each line hold their draw where it is
written, and nothing is said of a draw that is not (R88: it is arbitrary; log 2). -/
def Obligations.ResetValues : Prop :=
  ∀ (led0 : Option Bit) (lvl0 : LevelDraws) (s : State), ∃ t, exec (.reset led0 lvl0) s = .next t ∧
    (t.pos = 0 ∧ t.prevB = false) ∧ (t.riseUs = 0 ∧ t.widthUs = 0 ∧ t.usClock = 0) ∧
    (t.tickCount = 0 ∧ t.lastFullRevCount = 0) ∧ t.smooth = none ∧
    (t.kp = none ∧ t.ki = none ∧ t.kd = none ∧ t.minOut = none ∧ t.maxOut = none ∧ t.ts = none ∧
      t.setpoint = none) ∧
    (t.integ = 0 ∧ t.ePrev = 0 ∧ t.output = 0) ∧ t.cmdBuf = [] ∧
    (t.msClock = 0 ∧ t.prevEmitMs = 0 ∧ t.clkRun = false) ∧
    (t.ph = .st1 ∧ t.readyFail = 0 ∧ t.em = .idle ∧ t.emRec = ⟨none, none, none⟩) ∧
    (t.rangeLatch = 0 ∧ t.cal = none ∧ t.quat = none) ∧
    (t.steerDuty = none ∧ t.throttleDuty = none ∧ t.steerPeriodUs = none ∧ t.throttlePeriodUs = none) ∧
    (∀ b, led0 = some b → t.led = b) ∧ t.txLog = [] ∧ t.rxFifo = [] ∧
    (∀ k, getSource t.en k = false ∧ getSource t.pend k = false) ∧ t.faulted = false ∧
    (∀ l b, getDraw lvl0 l = some b → getLevel t.lvl l = b)

/-! ## Interrupt handlers -/

/-- R219: agent `ISR[k]` has a step exactly where source k is pending and enabled, and the step clears `pend[k]`
and no other pending bit. -/
def Obligations.HandlerStepsExactlyWhenPending : Prop :=
  ∀ (k : Source) (s : State),
    ((∃ t, exec (handlerOf k) s = .next t) ↔ getSource s.pend k = true ∧ getSource s.en k = true) ∧
    (∀ t, exec (handlerOf k) s = .next t →
      ∀ j, getSource t.pend j = if j = k then false else getSource s.pend j)

/-- R100, R102: an A-rise counts up where the cached B level is 0 and down where it is 1, modulo 2^32 with
POS_OVERFLOW = wrap; with fault a count at a limit leaves `pos` and sets `faulted` (R50, R222). The LED toggles. That
the overflow is a next state, with `faulted` set and all else completed, is the model's reading (DEDUCED, log 13). -/
def Obligations.QaRiseCounts : Prop :=
  ∀ s : State, s.pend.qaRise = true → s.en.qaRise = true →
    ∃ t, exec .qaRise s = .next t ∧
      (if s.cfg.posOverflow = .fault ∧
          ((s.prevB = false ∧ s.pos.toInt = 2 ^ 31 - 1) ∨ (s.prevB = true ∧ s.pos.toInt = -2 ^ 31)) then
        t = { s with faulted := true, led := !s.led, pend := { s.pend with qaRise := false } }
      else
        t.pos.toInt = Int.bmod (s.pos.toInt + if s.prevB then -1 else 1) (2 ^ 32) ∧
        t = { s with pos := t.pos, led := !s.led, pend := { s.pend with qaRise := false } })

/-- R101, R110, R120, R121: the handlers that do one plain write, whole next states. -/
def Obligations.PlainHandlers : Prop :=
  ∀ s : State,
    (s.pend.qbEdge = true → s.en.qbEdge = true →
      exec .qbEdge s = .next { s with prevB := !s.prevB, pend := { s.pend with qbEdge := false } }) ∧
    (s.pend.pwRise = true → s.en.pwRise = true →
      exec .pwRise s = .next { s with riseUs := s.usClock, pend := { s.pend with pwRise := false } }) ∧
    (s.pend.leTick = true → s.en.leTick = true →
      exec .leTick s = .next { s with tickCount := s.tickCount + 1, pend := { s.pend with leTick := false } }) ∧
    (s.pend.liIndex = true → s.en.liIndex = true →
      exec .liIndex s = .next { s with lastFullRevCount := s.tickCount, tickCount := 0,
                                       pend := { s.pend with liIndex := false } })

/-- R111, R112: the falling edge's handler measures modulo 2^32 and resets the clock; `rise_us` stays. -/
def Obligations.PwFallMeasures : Prop :=
  ∀ s : State, s.pend.pwFall = true → s.en.pwFall = true →
    ∃ t, exec .pwFall s = .next t ∧
      (t.widthUs.toNat : Int) = ((s.usClock.toNat : Int) - s.riseUs.toNat) % 2 ^ 32 ∧
      t = { s with widthUs := t.widthUs, usClock := 0, pend := { s.pend with pwFall := false } }

/-- R113 (the spec marks it as derived from R110 to R112): a rise and a later fall with no other rise, fall or reset
between them, and a total advance of the clock below 2^32, leave exactly that advance in `width_us`, whatever else
happens in between. -/
def Obligations.PulseWidthIsTotalAdvance : Prop :=
  ∀ (s t : State) (mid : List Instr),
    (∀ i ∈ mid, i ≠ .pwRise ∧ i ≠ .pwFall ∧ agentOf i ≠ some .rst) →
    (mid.map usAdvance).sum < 2 ^ 32 →
    run ([.pwRise] ++ mid ++ [.pwFall]) s = .next t →
    t.widthUs.toNat = (mid.map usAdvance).sum ∧ t.usClock = 0

/-- R103 (the spec marks it as derived from R100 and R102): over any run without a reset and with fewer than 2^31
A-rises, from `pos = 0`, `pos` is the number of A-rises taken with `prev_b = 0` less the number taken with
`prev_b = 1`; so k rises with `prev_b` constant throughout yield k or -k. -/
def Obligations.PositionCountsRises : Prop :=
  ∀ (is : List Instr) (s t : State),
    s.pos = 0 → is.count .qaRise < 2 ^ 31 → (∀ i ∈ is, agentOf i ≠ some .rst) → run is s = .next t →
    t.pos.toInt = riseBalance is s ∧
    ((∀ i ∈ is, i ≠ .qbEdge ∧ phaseOf i ≠ some .st9) →
      t.pos.toInt = if s.prevB then -(is.count .qaRise : Int) else (is.count .qaRise : Int))

/-- R224: with no overrun, `prev_b` is the level of ENC_B but for the one edge still pending, from ST10 on; so the
decoder's direction is the line's. -/
def Obligations.NoOverrunKeepsDirection : Prop :=
  ∀ (i : Instr) (s t : State),
    11 ≤ phaseRank s.ph → s.en.qbEdge = true → agentOf i ≠ some .rst → overruns i s = false →
    s.prevB = (s.lvl.encB ^^ s.pend.qbEdge) → exec i s = .next t →
    t.prevB = (t.lvl.encB ^^ t.pend.qbEdge) ∧ 11 ≤ phaseRank t.ph ∧ t.en.qbEdge = true

/-! ## Smoother -/

/-- R130: the seed is taken unweighted. -/
def Obligations.SmSeedTakesSample : Prop :=
  ∀ (s : State) (y : NumV), s.cfg.numeric = .exact → exec (.smSeed y) s = .next { s with smooth := some y }

/-- R131: the update law, and the refusal while `s` is unwritten. -/
def Obligations.SmUpdateLaw : Prop :=
  ∀ (s : State) (y : NumV), s.cfg.numeric = .exact →
    (∀ v, s.smooth = some v →
      exec (.smUpdate y) s = .next { s with smooth := some (s.cfg.alpha * y + (1 - s.cfg.alpha) * v) }) ∧
    (s.smooth = none → exec (.smUpdate y) s = .refused (.unwritten .s))

/-- R132, R133: with 0 < ALPHA <= 1 the update moves `s` by ALPHA times the distance to the sample, and `s` stays
between the sample and its old value. -/
def Obligations.SmUpdateContracts : Prop :=
  ∀ (s : State) (y v : NumV), s.cfg.numeric = .exact → 0 < s.cfg.alpha → s.cfg.alpha ≤ 1 → s.smooth = some v →
    ∃ t w, exec (.smUpdate y) s = .next t ∧ t.smooth = some w ∧
      w - v = s.cfg.alpha * (y - v) ∧ |w - v| = s.cfg.alpha * |y - v| ∧ min v y ≤ w ∧ w ≤ max v y

/-- R134: the closed form after a seed and any number of updates. -/
def Obligations.SmoothedClosedForm : Prop :=
  ∀ (s : State) (y0 : NumV) (ys : List NumV), s.cfg.numeric = .exact →
    run (.smSeed y0 :: ys.map .smUpdate) s = .next { s with
      smooth := some ((1 - s.cfg.alpha) ^ ys.length * y0 +
        ∑ k ∈ Finset.range ys.length, s.cfg.alpha * (1 - s.cfg.alpha) ^ (ys.length - 1 - k) * ys.getD k 0) }

/-! ## PID controller -/

/-- R161: `PID_INIT` writes bounds and period where `lo <= hi` and `t > 0`, and is refused elsewhere. -/
def Obligations.PidInitWritesOrRefuses : Prop :=
  ∀ (s : State) (lo hi p : NumV), s.cfg.numeric = .exact →
    (lo ≤ hi → 0 < p →
      exec (.pidInit lo hi p) s = .next { s with minOut := some lo, maxOut := some hi, ts := some p }) ∧
    (hi < lo ∨ p ≤ 0 → exec (.pidInit lo hi p) s = .refused .badPidConfig)

/-- R162: while a bound or the period is unwritten the entry points other than `PID_INIT` are refused for such a
field, and `PID_UPDATE` also for a gain or the setpoint. -/
def Obligations.PidPreconditions : Prop :=
  ∀ s : State,
    ((∃ f ∈ [Field.minOut, .maxOut, .ts, .kp, .ki, .kd, .setpoint], isUnwritten f s = true) →
      ∀ y, ∃ f ∈ [Field.minOut, .maxOut, .ts, .kp, .ki, .kd, .setpoint],
        isUnwritten f s = true ∧ exec (.pidUpdate y) s = .refused (.unwritten f)) ∧
    ((∃ f ∈ [Field.minOut, .maxOut, .ts], isUnwritten f s = true) →
      (∀ p i d, ∃ f ∈ [Field.minOut, .maxOut, .ts],
        isUnwritten f s = true ∧ exec (.pidSetpid p i d) s = .refused (.unwritten f)) ∧
      (∀ v, ∃ f ∈ [Field.minOut, .maxOut, .ts],
        isUnwritten f s = true ∧ exec (.pidSetpoint v) s = .refused (.unwritten f)))

/-- R163: the update, whole next state. -/
def Obligations.PidUpdateLaw : Prop :=
  ∀ (s : State) (y lo hi p kp ki kd sp : NumV), s.cfg.numeric = .exact →
    s.minOut = some lo → s.maxOut = some hi → s.ts = some p → s.kp = some kp → s.ki = some ki → s.kd = some kd →
    s.setpoint = some sp → 0 < p →
    let e := sp - y
    let i1 := s.integ + e * p
    let d := (e - s.ePrev) / p
    let u := kp * e + ki * i1 + kd * d
    exec (.pidUpdate y) s = .next { s with
      integ := if (hi < u ∧ 0 < e) ∨ (u < lo ∧ e < 0) then i1 - e * p else i1,
      output := if u < lo then lo else if hi < u then hi else u,
      ePrev := e }

/-- R167: saturated and pushing outward, the integrator ends as it began. -/
def Obligations.AntiWindupKeepsIntegrator : Prop :=
  ∀ (s t : State) (y lo hi p kp ki kd sp : NumV), s.cfg.numeric = .exact →
    s.minOut = some lo → s.maxOut = some hi → s.ts = some p → s.kp = some kp → s.ki = some ki → s.kd = some kd →
    s.setpoint = some sp → exec (.pidUpdate y) s = .next t →
    (t.output = hi ∧ hi < kp * (sp - y) + ki * (s.integ + (sp - y) * p) + kd * ((sp - y - s.ePrev) / p) ∧ y < sp) ∨
    (t.output = lo ∧ kp * (sp - y) + ki * (s.integ + (sp - y) * p) + kd * ((sp - y - s.ePrev) / p) < lo ∧ sp < y) →
    t.integ = s.integ

/-- R167: after every update the output lies in the bounds, under every NUMERIC. -/
def Obligations.OutputWithinBounds : Prop :=
  ∀ (s t : State) (y lo hi : NumV), s.minOut = some lo → s.maxOut = some hi → lo ≤ hi →
    exec (.pidUpdate y) s = .next t → lo ≤ t.output ∧ t.output ≤ hi

/-- R165, R166: `PID_SETPID` replaces the gains and `PID_SETPOINT` the clamped setpoint; nothing else changes. -/
def Obligations.PidSettersWrite : Prop :=
  ∀ (s : State) (lo hi p : NumV), s.cfg.numeric = .exact →
    s.minOut = some lo → s.maxOut = some hi → s.ts = some p →
    (∀ kp ki kd, exec (.pidSetpid kp ki kd) s = .next { s with kp := some kp, ki := some ki, kd := some kd }) ∧
    (∀ v, exec (.pidSetpoint v) s =
      .next { s with setpoint := some (if v < lo then lo else if hi < v then hi else v) })

/-! ## Tuning commands -/

/-- R181 to R186: each gain operation steps one gain and changes nothing else; while a gain it reads, a bound or the
period is unwritten it is refused for such a field (R227, R162). That a line of its own is performed with PID_TUNER =
false too is the model's choice (log 29). -/
def Obligations.GainCommandsStep : Prop :=
  ∀ s : State, s.cfg.numeric = .exact →
    (∀ lo hi p kp ki kd : NumV,
      s.minOut = some lo → s.maxOut = some hi → s.ts = some p → s.kp = some kp → s.ki = some ki → s.kd = some kd →
      exec .cmdKpUp s = .next { s with kp := some (kp + 1 / 100) } ∧
      exec .cmdKpDn s = .next { s with kp := some (kp - 1 / 100) } ∧
      exec .cmdKiUp s = .next { s with ki := some (ki + 1) } ∧
      exec .cmdKiDn s = .next { s with ki := some (ki - 1) } ∧
      exec .cmdKdUp s = .next { s with kd := some (kd + 1 / 1000) } ∧
      exec .cmdKdDn s = .next { s with kd := some (kd - 1 / 1000) }) ∧
    ((∃ f ∈ [Field.kp, .ki, .kd, .minOut, .maxOut, .ts], isUnwritten f s = true) →
      ∀ c ∈ [Instr.cmdKpUp, .cmdKpDn, .cmdKiUp, .cmdKiDn, .cmdKdUp, .cmdKdDn],
        ∃ f ∈ [Field.kp, .ki, .kd, .minOut, .maxOut, .ts],
          isUnwritten f s = true ∧ exec c s = .refused (.unwritten f))

/-- R187: a digit is appended and echoed while the buffer holds fewer than CMD_BUF_MAX - 1, and dropped silently
beyond; with PID_TUNER = false too, which is the model's choice (log 29). -/
def Obligations.DigitAppendsOrDrops : Prop :=
  ∀ (s : State) (d : Digit),
    (s.cmdBuf.length < s.cfg.cmdBufMax - 1 →
      exec (.cmdDigit d) s = .next { s with cmdBuf := s.cmdBuf ++ [d], txLog := s.txLog ++ [.echo d] }) ∧
    (s.cfg.cmdBufMax - 1 ≤ s.cmdBuf.length → exec (.cmdDigit d) s = .next s)

/-- R188: a commit sets the clamped setpoint and clears the buffer; with EMPTY_COMMIT = ignore an empty buffer
commits nothing. While a bound or the period is unwritten a commit that commits is refused for it (R227, R162). That a
line of its own is performed with PID_TUNER = false too is the model's choice (log 29). -/
def Obligations.CommitSetsSetpoint : Prop :=
  ∀ s : State, s.cfg.numeric = .exact →
    (s.cmdBuf = [] ∧ s.cfg.emptyCommit = .ignore → exec .cmdCommit s = .next s) ∧
    (¬(s.cmdBuf = [] ∧ s.cfg.emptyCommit = .ignore) →
      (∀ lo hi p : NumV, s.minOut = some lo → s.maxOut = some hi → s.ts = some p →
        exec .cmdCommit s = .next { s with
          setpoint := some (clamp ((digitsValue s.cmdBuf : NumV) / 1000) lo hi), cmdBuf := [] }) ∧
      ((∃ f ∈ [Field.minOut, .maxOut, .ts], isUnwritten f s = true) →
        ∃ f ∈ [Field.minOut, .maxOut, .ts],
          isUnwritten f s = true ∧ exec .cmdCommit s = .refused (.unwritten f)))

/-- R191: the value of a digit list is the decimal number it spells. -/
def Obligations.DigitsSpellDecimal : Prop :=
  ∀ ds : List Digit,
    digitsValue ds = ∑ j ∈ Finset.range ds.length, (ds.getD j 0).val * 10 ^ (ds.length - 1 - j)

/-- R192: n digits, 0 < n <= 31, and a terminator set the setpoint to min(N/1000, 1), with the digits echoed in
order and the buffer cleared; with PID_TUNER = false too, which is the model's choice (log 29). -/
def Obligations.SetpointRoundTrip : Prop :=
  ∀ (s : State) (ds : List Digit) (p : NumV), s.cfg.numeric = .exact → s.cfg.cmdBufMax = 32 →
    s.minOut = some 0 → s.maxOut = some 1 → s.ts = some p → s.cmdBuf = [] → ds ≠ [] → ds.length ≤ 31 →
    run (ds.map .cmdDigit ++ [.cmdCommit]) s = .next { s with
      setpoint := some (min
        (((∑ j ∈ Finset.range ds.length, (ds.getD j 0).val * 10 ^ (ds.length - 1 - j) : Nat) : NumV) / 1000) 1),
      txLog := s.txLog ++ ds.map .echo }

/-- R189: the status record of the values found; nothing else changes. While one of them is unwritten it is refused for
such a field (R227). That a line of its own is performed with PID_TUNER = false too is the model's choice (log 29). -/
def Obligations.StatusRecordsState : Prop :=
  ∀ s : State,
    (∀ kp ki kd sp : NumV, s.kp = some kp → s.ki = some ki → s.kd = some kd → s.setpoint = some sp →
      exec .cmdStatus s = .next { s with
        txLog := s.txLog ++ [.status ⟨kp, ki, kd, s.integ, s.ePrev, sp, s.output⟩] }) ∧
    ((∃ f ∈ [Field.kp, .ki, .kd, .setpoint], isUnwritten f s = true) →
      ∃ f ∈ [Field.kp, .ki, .kd, .setpoint], isUnwritten f s = true ∧ exec .cmdStatus s = .refused (.unwritten f))

/-! ## Loop phases -/

/-- R143: one sample, one smoother update, on to S2; refused while `s` is unwritten (R131). -/
def Obligations.S1Samples : Prop :=
  ∀ (s : State) (y : NumV), s.ph = .s1 → s.cfg.numeric = .exact →
    (∀ v, s.smooth = some v → exec (.s1Sample y) s =
      .next { s with smooth := some (s.cfg.alpha * y + (1 - s.cfg.alpha) * v), ph := .s2 }) ∧
    (s.smooth = none → exec (.s1Sample y) s = .refused (.unwritten .s))

/-- R144: S2 takes exactly the oldest byte and performs the command its value selects, or takes none; S2 completes
where that command does, and always where there is no byte or no parser; where that command is refused, S2 is. -/
def Obligations.S2TakesOneByte : Prop :=
  ∀ s : State, s.ph = .s2 →
    (s.cfg.pidTuner = false ∨ s.rxFifo = [] → exec .s2Serial s = .next { s with ph := .s3 }) ∧
    (∀ b rest t, s.cfg.pidTuner = true → s.rxFifo = b :: rest →
      exec (instrOfCommand (decodeCommand b)) { s with rxFifo := rest } = .next t →
      exec .s2Serial s = .next { t with ph := .s3 }) ∧
    (∀ b rest r, s.cfg.pidTuner = true → s.rxFifo = b :: rest →
      exec (instrOfCommand (decodeCommand b)) { s with rxFifo := rest } = .refused r →
      exec .s2Serial s = .refused r)

/-- R145: the update with `s` as the measurement, then the duty, in every state whose controller and smoother are
written; in the others it is refused for an unwritten field (R227, R162). -/
def Obligations.S3Controls : Prop :=
  ∀ s : State, s.ph = .s3 →
    (∀ v lo hi p kp ki kd sp : NumV, s.cfg.numeric = .exact → s.smooth = some v →
      s.minOut = some lo → s.maxOut = some hi → s.ts = some p → s.kp = some kp → s.ki = some ki → s.kd = some kd →
      s.setpoint = some sp → 0 < p →
      ∃ t, exec (.pidUpdate v) s = .next t ∧
        exec .s3Control s = .next { t with steerDuty := some t.output, ph := .s4 }) ∧
    ((∃ f ∈ [Field.s, .minOut, .maxOut, .ts, .kp, .ki, .kd, .setpoint], isUnwritten f s = true) →
      ∃ f ∈ [Field.s, .minOut, .maxOut, .ts, .kp, .ki, .kd, .setpoint],
        isUnwritten f s = true ∧ exec .s3Control s = .refused (.unwritten f))

/-- R146: PWM copies `width_us`, with no operands (R88) and whatever operands a line gives (log 19); I2C takes the
distance where the data-ready line is low and keeps the latch where it is high. A line without operands under I2C (R87's
CYCLE) takes some distance, a free value, for which the model's counter moves on (log 19). The data-ready level is the
line's (R62), whatever `rdy` a line writes (log 9). -/
def Obligations.S4Latches : Prop :=
  ∀ s : State, s.ph = .s4 →
    (s.cfg.rangeBackend = .pwm →
      ∀ rdy d, exec (.s4Range rdy d) s = .next { s with rangeLatch := s.widthUs, ph := .s5 }) ∧
    (s.cfg.rangeBackend = .i2c → s.lvl.rfRdy = false → ∀ rdy,
      (∀ d, exec (.s4Range rdy (some d)) s = .next { s with rangeLatch := d, ph := .s5 }) ∧
      ∃ d, exec (.s4Range rdy none) s = .next { s with rangeLatch := d, ph := .s5, choices := s.choices + 1 }) ∧
    (s.cfg.rangeBackend = .i2c → s.lvl.rfRdy = true → ∀ rdy d,
      exec (.s4Range rdy d) s = .next { s with ph := .s5 })

/-- R147: the orientation sample is latched whole. -/
def Obligations.S5Latches : Prop :=
  ∀ (s : State) (o : OriSample), s.ph = .s5 →
    exec (.s5Orient o) s = .next { s with cal := some o.cal, quat := some o.quat, ph := .s6 }

/-- R148: an emission starts where the modular difference reaches the timestep, with the guard's own time and the
floor of 1000 s; otherwise the cycle starts again. An emission is refused while `s` is unwritten (R227). -/
def Obligations.S6EmitsOnTimestep : Prop :=
  ∀ s : State, s.ph = .s6 → s.em = .idle → s.cfg.numeric = .exact →
    if ((s.msClock.toNat : Int) - s.prevEmitMs.toNat) % 2 ^ 32 ≥ s.cfg.timestepMs then
      (∀ v, s.smooth = some v →
        exec .s6Emit s = .next { s with
          prevEmitMs := s.msClock, em := .e1,
          emRec := { s.emRec with t := some s.msClock, sa := some ⌊1000 * v⌋ } }) ∧
      (s.smooth = none → exec .s6Emit s = .refused (.unwritten .s))
    else exec .s6Emit s = .next { s with ph := .s1 }

/-- R202: the odometer is read in a micro-step of its own. -/
def Obligations.EmOdoReadsPosition : Prop :=
  ∀ s : State, s.ph = .s6 → s.em = .e1 →
    exec .emOdo s = .next { s with emRec := { s.emRec with odo := some s.pos }, em := .e2 }

/-- R203: the line carries the scratch record, the latches and the bearing of this instant (0 with I2C), and the
cycle starts again. While a field of the line is unwritten it is refused for such a field (R227); that each field of
`em_rec` is unwritten on its own, where R42 gives the record one reset value none, is the model's reading (DEDUCED,
log 17). -/
def Obligations.EmSendEmitsLine : Prop :=
  ∀ s : State, s.ph = .s6 → s.em = .e2 →
    (∀ (t : Word) (sa : Int) (odo : Word) (c : Cal) (q : Quat),
      s.emRec = ⟨some t, some sa, some odo⟩ → s.cal = some c → s.quat = some q →
      exec .emSend s = .next { s with
        txLog := s.txLog ++ [.telem ⟨t, c, q, sa, odo, s.rangeLatch,
          if s.cfg.rangeBackend = .pwm then bearing s.cfg.tpr s.tickCount else 0⟩],
        em := .idle, ph := .s1 }) ∧
    ((∃ f ∈ [Field.emT, .cal, .quat, .emSa, .emOdo], isUnwritten f s = true) →
      ∃ f ∈ [Field.emT, .cal, .quat, .emSa, .emOdo],
        isUnwritten f s = true ∧ exec .emSend s = .refused (.unwritten f))

/-- R152: the last telemetry instant is written by an emitting S6 alone (and by RESET), which found the timestep
passed and stores the `t` of its line; so consecutive emissions' `t` are at least a timestep apart, modulo 2^32. -/
def Obligations.EmissionsKeepTheTimestep : Prop :=
  ∀ (i : Instr) (s t : State), exec i s = .next t → agentOf i ≠ some .rst →
    (t.prevEmitMs = s.prevEmitMs ∧ (s.em = .idle → t.em = .idle)) ∨
    (i = .s6Emit ∧ t.emRec.t = some t.prevEmitMs ∧ t.em = .e1 ∧
      s.cfg.timestepMs ≤ (t.prevEmitMs - s.prevEmitMs).toNat)

/-- R123, R125: the bearing is the integer quotient tc · 360 / TPR, at most 359, and never negative; one full
revolution gives 359 and none gives 0; and the values of the document's scenario 6. -/
def Obligations.BearingIsClampedQuotient : Prop :=
  ∀ tpr : Nat, 0 < tpr →
    (∀ tc : Word, bearing tpr tc = ((min (tc.toNat * 360 / tpr) 359 : Nat) : Int)) ∧
    bearing tpr 0 = 0 ∧ (tpr < 2 ^ 32 → bearing tpr (BitVec.ofNat 32 tpr) = 359) ∧
    bearing 1346 673 = 180 ∧ bearing 1346 1346 = 359

/-! ## Startup -/

/-- R252, R253, R255, R257, R258: the startup steps without operands that write fixed values. -/
def Obligations.PlainStartupSteps : Prop :=
  ∀ s : State,
    (s.ph = .st1 → exec .st1 s = .next { s with ph := .st2 }) ∧
    (s.ph = .st2 → exec .st2 s = .next { s with clkRun := true, ph := .st3 }) ∧
    (s.ph = .st4 → exec .st4 s = .next { s with ph := .st5 }) ∧
    (s.ph = .st6 → exec .st6 s = .next { s with steerPeriodUs := some s.cfg.pwmPeriodUs,
                                                 throttlePeriodUs := some s.cfg.pwmPeriodUs, ph := .st7 }) ∧
    (s.ph = .st7 → s.cfg.numeric = .exact →
      exec .st7 s = .next { s with throttleDuty := some s.cfg.throttleDuty, ph := .st8 })

/-- R254: bounds, period, gains and the clamped initial setpoint; the integrator, the previous error and the output
stay. -/
def Obligations.St3InitialisesPid : Prop :=
  ∀ s : State, s.ph = .st3 → s.cfg.numeric = .exact → s.cfg.minOut ≤ s.cfg.maxOut → 0 < s.cfg.ts →
    exec .st3 s = .next { s with
      minOut := some s.cfg.minOut, maxOut := some s.cfg.maxOut, ts := some s.cfg.ts,
      kp := some s.cfg.kp0, ki := some s.cfg.ki0, kd := some s.cfg.kd0,
      setpoint := some (clamp s.cfg.setpoint0 s.cfg.minOut s.cfg.maxOut), ph := .st4 }

/-- R256: readiness ends the poll; a failure counts, toggles the LED, and emits DIAG at the READY_DIAG_N-th only. -/
def Obligations.St5Polls : Prop :=
  ∀ s : State, s.ph = .st5 →
    exec (.st5 true) s = .next { s with ph := .st6 } ∧
    exec (.st5 false) s = .next { s with
      readyFail := s.readyFail + 1, led := !s.led,
      txLog := s.txLog ++ (if s.readyFail + 1 = s.cfg.readyDiagN then [.diag] else []) }

/-- R259, R260: the seed sample, and the cached level of ENC_B (R62). That the operand of a trace line (R88) has no say in
it, where it is another level, is the model's reading (DEDUCED, log 9). -/
def Obligations.St8SeedsSt9Caches : Prop :=
  ∀ s : State,
    (∀ y, s.ph = .st8 → s.cfg.numeric = .exact →
      exec (.st8 y) s = .next { s with smooth := some y, ph := .st9 }) ∧
    (∀ b, s.ph = .st9 → exec (.st9 b) s = .next { s with prevB := s.lvl.encB, ph := .st10 })

/-- R261: which sources the build options enable. -/
def Obligations.St10Enables : Prop :=
  ∀ s : State, s.ph = .st10 →
    exec .st10 s = .next { s with
      en := { qaRise := true, qbEdge := true,
              pwRise := s.en.pwRise || (s.cfg.rangeBackend == .pwm && s.cfg.lidarAttached),
              pwFall := s.en.pwFall || (s.cfg.rangeBackend == .pwm && s.cfg.lidarAttached),
              leTick := s.en.leTick || s.cfg.lidarAttached,
              liIndex := s.en.liIndex || s.cfg.lidarAttached },
      ph := .s1 }

/-! ## Environment -/

/-- R217 with the edges of R215: the line toggles, each enabled source whose edge matches becomes pending (merging with a
request already there), and nothing else changes. `up` is the line's new level. That RF_RDY is a line with the PWM
backend too (R62: I2C only) is the model's choice (log 28). -/
def Obligations.EdgeRequestsMatchingSources : Prop :=
  ∀ (s : State) (l : Line), ∃ t, exec (.envEdge l) s = .next t ∧
    let up := !getLevel s.lvl l
    (∀ m, getLevel t.lvl m = if m = l then up else getLevel s.lvl m) ∧
    t = { s with
      lvl := t.lvl,
      pend := { qaRise := s.pend.qaRise || (s.en.qaRise && (l == .encA) && up),
                qbEdge := s.pend.qbEdge || (s.en.qbEdge && (l == .encB)),
                pwRise := s.pend.pwRise || (s.en.pwRise && (l == .pwIn) && up),
                pwFall := s.pend.pwFall || (s.en.pwFall && (l == .pwIn) && !up),
                leTick := s.pend.leTick || (s.en.leTick && (l == .lidEnc) && up),
                liIndex := s.pend.liIndex || (s.en.liIndex && (l == .lidIdx) && up) } }

/-- R218, R228, R229: a byte queues; the clocks advance modulo 2^32 while they run. -/
def Obligations.BytesQueueClocksAdvance : Prop :=
  ∀ s : State,
    (∀ b, exec (.envRx b) s = .next { s with rxFifo := s.rxFifo ++ [b] }) ∧
    (∀ n, s.clkRun = true →
      exec (.envMs n) s = .next { s with msClock := BitVec.ofNat 32 (s.msClock.toNat + n) } ∧
      exec (.envUs n) s = .next { s with usClock := BitVec.ofNat 32 (s.usClock.toNat + n) })

/-! ## The whole machine -/

/-- Every step keeps the invariant of Safety.lean. -/
def Obligations.StepKeepsInv : Prop :=
  ∀ s t : State, StateInv s → step s = .next t → StateInv t

/-- The state after reset has the invariant. -/
def Obligations.ResetHasInv : Prop := StateInv State.reset

/-- R225 of the agents' steps: where the invariant holds and the configuration is one of R7, every enabled step of an
agent completes, whatever its operands. (`SM_*`, `PID_*` and `CMD_*` on a trace line of their own are no agent's steps, log 22; inside the
foreground's steps they are covered.) -/
def Obligations.EnabledStepsComplete : Prop :=
  ∀ (i : Instr) (s : State), StateInv s → paramsOk s.cfg = true → s.cfg.numeric = .exact →
    (agentOf i).isSome = true → enabled i s = true → ∃ t, exec i s = .next t

/-- From a state with the invariant and no trace the machine never stops: any number of its steps, under any schedule
and any draws (log 4, 5), ends in a next state. -/
def Obligations.FreeRunNeverStops : Prop :=
  ∀ (n : Nat) (s : State), StateInv s → paramsOk s.cfg = true → s.cfg.numeric = .exact → s.trace = [] →
    ∃ t, Host.Core.run core n s = .next t

/-- R49: what a context is not listed for it never writes. Handlers write their own fields, the foreground (the
operations it performs included) never writes those but `prev_b` at ST9 and `led` at ST5, the environment writes lines,
requests, clocks and the input FIFO. -/
def Obligations.WritePermissions : Prop :=
  ∀ (i : Instr) (s t : State), exec i s = .next t →
    (∀ k, agentOf i = some (.isr k) →
      t = { s with pos := t.pos, prevB := t.prevB, riseUs := t.riseUs, widthUs := t.widthUs, usClock := t.usClock,
                   tickCount := t.tickCount, lastFullRevCount := t.lastFullRevCount, led := t.led, pend := t.pend,
                   faulted := t.faulted } ∧
      (t.pos ≠ s.pos → k = .qaRise) ∧ (t.led ≠ s.led → k = .qaRise) ∧ (t.prevB ≠ s.prevB → k = .qbEdge) ∧
      (t.riseUs ≠ s.riseUs → k = .pwRise) ∧ (t.widthUs ≠ s.widthUs → k = .pwFall) ∧
      (t.usClock ≠ s.usClock → k = .pwFall) ∧ (t.tickCount ≠ s.tickCount → k = .leTick ∨ k = .liIndex) ∧
      (t.lastFullRevCount ≠ s.lastFullRevCount → k = .liIndex)) ∧
    (agentOf i = some .fg ∨ agentOf i = none →
      t.pos = s.pos ∧ t.riseUs = s.riseUs ∧ t.widthUs = s.widthUs ∧ t.usClock = s.usClock ∧
      t.tickCount = s.tickCount ∧ t.lastFullRevCount = s.lastFullRevCount ∧ t.pend = s.pend ∧
      t.msClock = s.msClock ∧ t.lvl = s.lvl ∧ t.faulted = s.faulted ∧
      (t.prevB ≠ s.prevB → phaseOf i = some .st9) ∧ (t.led ≠ s.led → phaseOf i = some .st5) ∧
      (t.en ≠ s.en → i = .st10) ∧ (t.clkRun ≠ s.clkRun → i = .st2)) ∧
    (agentOf i = some .env →
      t = { s with lvl := t.lvl, pend := t.pend, msClock := t.msClock, usClock := t.usClock, rxFifo := t.rxFifo })

/-- R6: no step writes a parameter; and no operation writes the model's own trace, or its counter of choices but to move
it on by one in any RESET (log 18), and by at most one in an S4_RANGE that does not write the distance (log 19). The
parameters and the trace stand in the state by the model's choice (log 6, 14). -/
def Obligations.ParametersNeverChange : Prop :=
  (∀ s t : State, step s = .next t → t.cfg = s.cfg) ∧
  (∀ (i : Instr) (s t : State), exec i s = .next t → t.cfg = s.cfg ∧ t.trace = s.trace ∧
    (t.choices = s.choices ∨
      (agentOf i = some .rst ∧ t.choices = s.choices + 1) ∨
      ∃ rdy, i = .s4Range rdy none ∧ t.choices = s.choices + 1) ∧
    (agentOf i = some .rst → t.choices = s.choices + 1))

/-- R262: after ST7 nothing but a reset changes the throttle channel. -/
def Obligations.ThrottleStaysAfterStartup : Prop :=
  ∀ (i : Instr) (s t : State), 8 ≤ phaseRank s.ph → exec i s = .next t → agentOf i ≠ some .rst →
    t.throttleDuty = s.throttleDuty ∧ t.throttlePeriodUs = s.throttlePeriodUs ∧ 8 ≤ phaseRank t.ph

/-- R64: with the bounds [0,1] no step writes a steering duty outside [0,1]. -/
def Obligations.SteeringDutyInRange : Prop :=
  ∀ (i : Instr) (s t : State), s.minOut = some 0 → s.maxOut = some 1 → exec i s = .next t →
    (∀ d, s.steerDuty = some d → 0 ≤ d ∧ d ≤ 1) → ∀ d, t.steerDuty = some d → 0 ≤ d ∧ d ≤ 1

/-! ## Text -/

/-- R205: decimal, most significant digit first, no leading zeros, `0` for zero, `-` for negative values. -/
def Obligations.DecimalText : Prop :=
  (∀ n : Nat, (natText n).foldl (fun v c => 10 * v + (c.toNat - 48)) 0 = n ∧
    (∀ c ∈ natText n, 48 ≤ c.toNat ∧ c.toNat ≤ 57) ∧ natText n ≠ [] ∧
    (0 < n → (natText n).head? ≠ some '0') ∧ (n = 0 → natText n = ['0'])) ∧
  (∀ z : Int, intText z = (if z < 0 then ['-'] else []) ++ natText z.natAbs)

/-- R201, R207: the text of every telemetry record, its fields in the order of the format and each number as R205 prints
it, and of every echo; and the example line of R210. -/
def Obligations.ExampleLine : Prop :=
  (∀ x : Telem, recordText (.telem x) = some (
    "t:".toList ++ natText x.t.toNat ++
    ",AMGS:".toList ++ natText x.cal.a.toNat ++ natText x.cal.m.toNat ++ natText x.cal.g.toNat ++ natText x.cal.sy.toNat ++
    ",qw:".toList ++ intText x.quat.w.toInt ++ ",qx:".toList ++ intText x.quat.x.toInt ++
    ",qy:".toList ++ intText x.quat.y.toInt ++ ",qz:".toList ++ intText x.quat.z.toInt ++
    ",sa:".toList ++ intText x.sa ++ ",odo:".toList ++ intText x.odo.toInt ++
    ",r:".toList ++ natText x.r.toNat ++ ",b:".toList ++ intText x.b ++ ['\r', '\n'])) ∧
  (∀ d : Digit, ∃ c, recordText (.echo d) = some [c] ∧ c.toNat = 0x30 + d.val) ∧
  telemText ⟨125#32, ⟨3#2, 3#2, 3#2, 3#2⟩, ⟨16384#16, 0#16, (-12 : Half), 7#16⟩, 620, (-12 : Word), 2500#32,
      bearing 1346 673#32⟩ =
    "t:125,AMGS:3333,qw:16384,qx:0,qy:-12,qz:7,sa:620,odo:-12,r:2500,b:180".toList ++ ['\r', '\n']

/-! ## Fairness -/

/-- R220: in a weakly fair run (Safety.lean, log 25) every request of an enabled source is served, unless a RESET
ends it; and every step of the machine is a step of a run. -/
def Obligations.FairRunsServeRequests : Prop :=
  (∀ (act : Nat → Instr) (st : Nat → State), isRun act st → WeaklyFair act st →
    ∀ (k : Source) (n : Nat), getSource (st n).pend k = true → getSource (st n).en k = true →
      ∃ m, n ≤ m ∧ (act m = handlerOf k ∨ agentOf (act m) = some .rst)) ∧
  (∀ s t : State, step s = .next t →
    ∃ (i : Instr) (tr : List TraceLine) (c : Nat), exec i { s with trace := tr, choices := c } = .next t)
end

