-- ==== Sys2Proof/Laws/State.lean ====
section
/-! SUPPORT. What the named updates of State (Machine/Ops.lean) do to each field, one lemma a field, so that no proof
unfolds an update. -/

namespace Sys2Proof.Machine

section Emit

variable (r : Record) (s : State)

@[simp] theorem emit_pos : (emit r s).pos = s.pos := rfl
@[simp] theorem emit_prevB : (emit r s).prevB = s.prevB := rfl
@[simp] theorem emit_riseUs : (emit r s).riseUs = s.riseUs := rfl
@[simp] theorem emit_widthUs : (emit r s).widthUs = s.widthUs := rfl
@[simp] theorem emit_usClock : (emit r s).usClock = s.usClock := rfl
@[simp] theorem emit_tickCount : (emit r s).tickCount = s.tickCount := rfl
@[simp] theorem emit_lastFullRevCount : (emit r s).lastFullRevCount = s.lastFullRevCount := rfl
@[simp] theorem emit_smooth : (emit r s).smooth = s.smooth := rfl
@[simp] theorem emit_kp : (emit r s).kp = s.kp := rfl
@[simp] theorem emit_ki : (emit r s).ki = s.ki := rfl
@[simp] theorem emit_kd : (emit r s).kd = s.kd := rfl
@[simp] theorem emit_minOut : (emit r s).minOut = s.minOut := rfl
@[simp] theorem emit_maxOut : (emit r s).maxOut = s.maxOut := rfl
@[simp] theorem emit_ts : (emit r s).ts = s.ts := rfl
@[simp] theorem emit_integ : (emit r s).integ = s.integ := rfl
@[simp] theorem emit_ePrev : (emit r s).ePrev = s.ePrev := rfl
@[simp] theorem emit_setpoint : (emit r s).setpoint = s.setpoint := rfl
@[simp] theorem emit_output : (emit r s).output = s.output := rfl
@[simp] theorem emit_cmdBuf : (emit r s).cmdBuf = s.cmdBuf := rfl
@[simp] theorem emit_msClock : (emit r s).msClock = s.msClock := rfl
@[simp] theorem emit_prevEmitMs : (emit r s).prevEmitMs = s.prevEmitMs := rfl
@[simp] theorem emit_clkRun : (emit r s).clkRun = s.clkRun := rfl
@[simp] theorem emit_ph : (emit r s).ph = s.ph := rfl
@[simp] theorem emit_readyFail : (emit r s).readyFail = s.readyFail := rfl
@[simp] theorem emit_em : (emit r s).em = s.em := rfl
@[simp] theorem emit_emRec : (emit r s).emRec = s.emRec := rfl
@[simp] theorem emit_rangeLatch : (emit r s).rangeLatch = s.rangeLatch := rfl
@[simp] theorem emit_cal : (emit r s).cal = s.cal := rfl
@[simp] theorem emit_quat : (emit r s).quat = s.quat := rfl
@[simp] theorem emit_steerDuty : (emit r s).steerDuty = s.steerDuty := rfl
@[simp] theorem emit_throttleDuty : (emit r s).throttleDuty = s.throttleDuty := rfl
@[simp] theorem emit_steerPeriodUs : (emit r s).steerPeriodUs = s.steerPeriodUs := rfl
@[simp] theorem emit_throttlePeriodUs : (emit r s).throttlePeriodUs = s.throttlePeriodUs := rfl
@[simp] theorem emit_led : (emit r s).led = s.led := rfl
@[simp] theorem emit_txLog : (emit r s).txLog = s.txLog ++ [r] := rfl
@[simp] theorem emit_en : (emit r s).en = s.en := rfl
@[simp] theorem emit_pend : (emit r s).pend = s.pend := rfl
@[simp] theorem emit_faulted : (emit r s).faulted = s.faulted := rfl
@[simp] theorem emit_lvl : (emit r s).lvl = s.lvl := rfl
@[simp] theorem emit_rxFifo : (emit r s).rxFifo = s.rxFifo := rfl
@[simp] theorem emit_cfg : (emit r s).cfg = s.cfg := rfl
@[simp] theorem emit_trace : (emit r s).trace = s.trace := rfl
@[simp] theorem emit_choices : (emit r s).choices = s.choices := rfl

end Emit

section Goto

variable (p : Phase) (s : State)

@[simp] theorem goto_pos : (goto p s).pos = s.pos := rfl
@[simp] theorem goto_prevB : (goto p s).prevB = s.prevB := rfl
@[simp] theorem goto_riseUs : (goto p s).riseUs = s.riseUs := rfl
@[simp] theorem goto_widthUs : (goto p s).widthUs = s.widthUs := rfl
@[simp] theorem goto_usClock : (goto p s).usClock = s.usClock := rfl
@[simp] theorem goto_tickCount : (goto p s).tickCount = s.tickCount := rfl
@[simp] theorem goto_lastFullRevCount : (goto p s).lastFullRevCount = s.lastFullRevCount := rfl
@[simp] theorem goto_smooth : (goto p s).smooth = s.smooth := rfl
@[simp] theorem goto_kp : (goto p s).kp = s.kp := rfl
@[simp] theorem goto_ki : (goto p s).ki = s.ki := rfl
@[simp] theorem goto_kd : (goto p s).kd = s.kd := rfl
@[simp] theorem goto_minOut : (goto p s).minOut = s.minOut := rfl
@[simp] theorem goto_maxOut : (goto p s).maxOut = s.maxOut := rfl
@[simp] theorem goto_ts : (goto p s).ts = s.ts := rfl
@[simp] theorem goto_integ : (goto p s).integ = s.integ := rfl
@[simp] theorem goto_ePrev : (goto p s).ePrev = s.ePrev := rfl
@[simp] theorem goto_setpoint : (goto p s).setpoint = s.setpoint := rfl
@[simp] theorem goto_output : (goto p s).output = s.output := rfl
@[simp] theorem goto_cmdBuf : (goto p s).cmdBuf = s.cmdBuf := rfl
@[simp] theorem goto_msClock : (goto p s).msClock = s.msClock := rfl
@[simp] theorem goto_prevEmitMs : (goto p s).prevEmitMs = s.prevEmitMs := rfl
@[simp] theorem goto_clkRun : (goto p s).clkRun = s.clkRun := rfl
@[simp] theorem goto_ph : (goto p s).ph = p := rfl
@[simp] theorem goto_readyFail : (goto p s).readyFail = s.readyFail := rfl
@[simp] theorem goto_em : (goto p s).em = s.em := rfl
@[simp] theorem goto_emRec : (goto p s).emRec = s.emRec := rfl
@[simp] theorem goto_rangeLatch : (goto p s).rangeLatch = s.rangeLatch := rfl
@[simp] theorem goto_cal : (goto p s).cal = s.cal := rfl
@[simp] theorem goto_quat : (goto p s).quat = s.quat := rfl
@[simp] theorem goto_steerDuty : (goto p s).steerDuty = s.steerDuty := rfl
@[simp] theorem goto_throttleDuty : (goto p s).throttleDuty = s.throttleDuty := rfl
@[simp] theorem goto_steerPeriodUs : (goto p s).steerPeriodUs = s.steerPeriodUs := rfl
@[simp] theorem goto_throttlePeriodUs : (goto p s).throttlePeriodUs = s.throttlePeriodUs := rfl
@[simp] theorem goto_led : (goto p s).led = s.led := rfl
@[simp] theorem goto_txLog : (goto p s).txLog = s.txLog := rfl
@[simp] theorem goto_en : (goto p s).en = s.en := rfl
@[simp] theorem goto_pend : (goto p s).pend = s.pend := rfl
@[simp] theorem goto_faulted : (goto p s).faulted = s.faulted := rfl
@[simp] theorem goto_lvl : (goto p s).lvl = s.lvl := rfl
@[simp] theorem goto_rxFifo : (goto p s).rxFifo = s.rxFifo := rfl
@[simp] theorem goto_cfg : (goto p s).cfg = s.cfg := rfl
@[simp] theorem goto_trace : (goto p s).trace = s.trace := rfl
@[simp] theorem goto_choices : (goto p s).choices = s.choices := rfl

end Goto

section WritePend

variable (k : Source) (v : Bit) (s : State)

@[simp] theorem writePend_pos : (writePend k v s).pos = s.pos := rfl
@[simp] theorem writePend_prevB : (writePend k v s).prevB = s.prevB := rfl
@[simp] theorem writePend_riseUs : (writePend k v s).riseUs = s.riseUs := rfl
@[simp] theorem writePend_widthUs : (writePend k v s).widthUs = s.widthUs := rfl
@[simp] theorem writePend_usClock : (writePend k v s).usClock = s.usClock := rfl
@[simp] theorem writePend_tickCount : (writePend k v s).tickCount = s.tickCount := rfl
@[simp] theorem writePend_lastFullRevCount : (writePend k v s).lastFullRevCount = s.lastFullRevCount := rfl
@[simp] theorem writePend_smooth : (writePend k v s).smooth = s.smooth := rfl
@[simp] theorem writePend_kp : (writePend k v s).kp = s.kp := rfl
@[simp] theorem writePend_ki : (writePend k v s).ki = s.ki := rfl
@[simp] theorem writePend_kd : (writePend k v s).kd = s.kd := rfl
@[simp] theorem writePend_minOut : (writePend k v s).minOut = s.minOut := rfl
@[simp] theorem writePend_maxOut : (writePend k v s).maxOut = s.maxOut := rfl
@[simp] theorem writePend_ts : (writePend k v s).ts = s.ts := rfl
@[simp] theorem writePend_integ : (writePend k v s).integ = s.integ := rfl
@[simp] theorem writePend_ePrev : (writePend k v s).ePrev = s.ePrev := rfl
@[simp] theorem writePend_setpoint : (writePend k v s).setpoint = s.setpoint := rfl
@[simp] theorem writePend_output : (writePend k v s).output = s.output := rfl
@[simp] theorem writePend_cmdBuf : (writePend k v s).cmdBuf = s.cmdBuf := rfl
@[simp] theorem writePend_msClock : (writePend k v s).msClock = s.msClock := rfl
@[simp] theorem writePend_prevEmitMs : (writePend k v s).prevEmitMs = s.prevEmitMs := rfl
@[simp] theorem writePend_clkRun : (writePend k v s).clkRun = s.clkRun := rfl
@[simp] theorem writePend_ph : (writePend k v s).ph = s.ph := rfl
@[simp] theorem writePend_readyFail : (writePend k v s).readyFail = s.readyFail := rfl
@[simp] theorem writePend_em : (writePend k v s).em = s.em := rfl
@[simp] theorem writePend_emRec : (writePend k v s).emRec = s.emRec := rfl
@[simp] theorem writePend_rangeLatch : (writePend k v s).rangeLatch = s.rangeLatch := rfl
@[simp] theorem writePend_cal : (writePend k v s).cal = s.cal := rfl
@[simp] theorem writePend_quat : (writePend k v s).quat = s.quat := rfl
@[simp] theorem writePend_steerDuty : (writePend k v s).steerDuty = s.steerDuty := rfl
@[simp] theorem writePend_throttleDuty : (writePend k v s).throttleDuty = s.throttleDuty := rfl
@[simp] theorem writePend_steerPeriodUs : (writePend k v s).steerPeriodUs = s.steerPeriodUs := rfl
@[simp] theorem writePend_throttlePeriodUs : (writePend k v s).throttlePeriodUs = s.throttlePeriodUs := rfl
@[simp] theorem writePend_led : (writePend k v s).led = s.led := rfl
@[simp] theorem writePend_txLog : (writePend k v s).txLog = s.txLog := rfl
@[simp] theorem writePend_en : (writePend k v s).en = s.en := rfl
@[simp] theorem writePend_pend : (writePend k v s).pend = setSource s.pend k v := rfl
@[simp] theorem writePend_faulted : (writePend k v s).faulted = s.faulted := rfl
@[simp] theorem writePend_lvl : (writePend k v s).lvl = s.lvl := rfl
@[simp] theorem writePend_rxFifo : (writePend k v s).rxFifo = s.rxFifo := rfl
@[simp] theorem writePend_cfg : (writePend k v s).cfg = s.cfg := rfl
@[simp] theorem writePend_trace : (writePend k v s).trace = s.trace := rfl
@[simp] theorem writePend_choices : (writePend k v s).choices = s.choices := rfl

end WritePend

end Sys2Proof.Machine
end

