-- ==== Sys2Proof/Laws/Ops.lean ====
section
/-! SUPPORT. One lemma for each shared operation that says all it can do. -/

namespace Sys2Proof.Machine

/-! ### Num arithmetic -/

@[simp] theorem roundNum_exact (x : NumV) : roundNum .exact x = .ok x := rfl
@[simp] theorem literal_exact (x : NumV) : literal .exact x = .ok x := rfl
@[simp] theorem addNum_exact (a b : NumV) : addNum .exact a b = .ok (a + b) := rfl
@[simp] theorem subNum_exact (a b : NumV) : subNum .exact a b = .ok (a - b) := rfl
@[simp] theorem mulNum_exact (a b : NumV) : mulNum .exact a b = .ok (a * b) := rfl

theorem divNum_exact {b : NumV} (a : NumV) (h : b ≠ 0) : divNum .exact a b = .ok (a / b) := by
  simp [divNum, h]

/-- Rounding refuses as notANumber or not at all, and never in the exact system. -/
theorem roundNum_cases (nm : Numeric) (x : NumV) :
    (∃ v, roundNum nm x = .ok v) ∨ (nm ≠ .exact ∧ roundNum nm x = .error .notANumber) := by
  cases nm with
  | exact => exact .inl ⟨x, rfl⟩
  | binary32 => simp only [roundNum]; split <;> simp
  | binary64 => simp only [roundNum]; split <;> simp

/-- `clamp` stays within ordered bounds. -/
theorem clamp_bounds {lo hi : NumV} (v : NumV) (h : lo ≤ hi) : lo ≤ clamp v lo hi ∧ clamp v lo hi ≤ hi := by
  unfold clamp
  split
  · exact ⟨le_rfl, h⟩
  · split
    · exact ⟨h, le_rfl⟩
    · constructor <;> exact not_lt.mp ‹_›

theorem clamp_eq_max_min {lo hi : NumV} (v : NumV) (h : lo ≤ hi) : clamp v lo hi = max lo (min v hi) := by
  unfold clamp
  split
  · rw [min_eq_left (by linarith), max_eq_left (by linarith)]
  · split
    · rw [min_eq_right (by linarith), max_eq_right h]
    · rw [min_eq_left (by linarith), max_eq_right (by linarith)]

/-! ### Indexed fields -/

@[simp] theorem getSource_setSource (b : SourceBits) (k j : Source) (v : Bit) :
    getSource (setSource b k v) j = if j = k then v else getSource b j := by
  cases k <;> cases j <;> rfl

@[simp] theorem getLevel_drawnLevels (b : LevelDraws) (free : Levels) (m : Line) :
    getLevel (drawnLevels b free) m = (getDraw b m).getD (getLevel free m) := by
  cases m <;> rfl

@[simp] theorem getLevel_toggleLevel (b : Levels) (l m : Line) :
    getLevel (toggleLevel b l) m = if m = l then !getLevel b m else getLevel b m := by
  cases l <;> cases m <;> rfl

/-! ### Outcomes -/

@[simp] theorem finish_ok (s : State) : finish (.ok s) = .next s := rfl
@[simp] theorem finish_error (r : Refusal) : finish (.error r) = .refused r := rfl

@[simp] theorem finish_eq_next {x : Except Refusal State} {t : State} : finish x = .next t ↔ x = .ok t := by
  cases x <;> simp [finish]

@[simp] theorem finish_eq_refused {x : Except Refusal State} {r : Refusal} :
    finish x = .refused r ↔ x = .error r := by
  cases x <;> simp [finish]

@[simp] theorem need_some {α : Type} (v : α) (f : Field) : need (some v) f = .ok v := rfl
@[simp] theorem need_none {α : Type} (f : Field) : need (none : Option α) f = .error (.unwritten f) := rfl

@[simp] theorem need_eq_ok {α : Type} {x : Option α} {f : Field} {v : α} : need x f = .ok v ↔ x = some v := by
  cases x <;> simp [need]

/-- A sequence of two computations gives a value exactly where both do. -/
theorem bind_eq_ok {α β : Type} {x : Except Refusal α} {f : α → Except Refusal β} {b : β} :
    (x >>= f) = .ok b ↔ ∃ a, x = .ok a ∧ f a = .ok b := by
  cases x <;> simp [bind, Except.bind]

/-- A sequence of two computations refuses where the first does, or where the second does after it. -/
theorem bind_eq_error {α β : Type} {x : Except Refusal α} {f : α → Except Refusal β} {r : Refusal} :
    (x >>= f) = .error r ↔ x = .error r ∨ ∃ a, x = .ok a ∧ f a = .error r := by
  cases x <;> simp [bind, Except.bind]

@[simp] theorem ok_bind {α β : Type} (a : α) (f : α → Except Refusal β) : (Except.ok a >>= f) = f a := rfl
@[simp] theorem error_bind {α β : Type} (r : Refusal) (f : α → Except Refusal β) :
    (Except.error r >>= f) = .error r := rfl

theorem takeInterrupt_eq_next {k : Source} {body : State → State} {s t : State} :
    takeInterrupt k body s = .next t ↔ handlerEnabled k s = true ∧ t = body (writePend k false s) := by
  unfold takeInterrupt
  split
  · exact ⟨fun h => ⟨‹_›, (Host.Outcome.next.inj h).symm⟩, fun h => h.2 ▸ rfl⟩
  · exact ⟨fun h => (nomatch h), fun h => absurd h.1 ‹_›⟩

theorem phaseStep_eq_next {p : Phase} {body : State → Except Refusal State} {s t : State} :
    phaseStep p body s = .next t ↔ s.ph = p ∧ body s = .ok t := by
  unfold phaseStep
  split <;> simp_all

theorem emitStep_eq_next {e : SubPhase} {body : State → Except Refusal State} {s t : State} :
    emitStep e body s = .next t ↔ (s.ph = .s6 ∧ s.em = e) ∧ body s = .ok t := by
  unfold emitStep
  split <;> simp_all

theorem clockStep_eq_next {body : State → State} {s t : State} :
    clockStep body s = .next t ↔ s.clkRun = true ∧ t = body s := by
  unfold clockStep
  split
  · exact ⟨fun h => ⟨‹_›, (Host.Outcome.next.inj h).symm⟩, fun h => h.2 ▸ rfl⟩
  · exact ⟨fun h => (nomatch h), fun h => absurd h.1 ‹_›⟩

/-- A request changes the pending bits alone. -/
theorem request_frame (k : Source) (s : State) : request k s = { s with pend := (request k s).pend } := by
  unfold request
  split <;> rfl

/-- A request sets bit k where source k is enabled, and no other bit. -/
theorem request_pend (k j : Source) (s : State) :
    getSource (request k s).pend j = (getSource s.pend j || (decide (j = k) && getSource s.en k)) := by
  unfold request
  split <;> by_cases h : j = k <;> simp_all

/-! ### The operations on the state -/

/-- The controller is ready exactly where its bounds and its period are written (R162). -/
theorem pidReady_eq_ok {s : State} {lo hi t : NumV} :
    pidReady s = .ok (lo, hi, t) ↔ s.minOut = some lo ∧ s.maxOut = some hi ∧ s.ts = some t := by
  unfold pidReady
  cases s.minOut <;> cases s.maxOut <;> cases s.ts <;> simp

theorem smSeed_frame {y : NumV} {s t : State} (h : smSeed y s = .ok t) :
    ∃ v, t = { s with smooth := some v } := by
  obtain ⟨v, -, h⟩ := bind_eq_ok.mp h
  exact ⟨v, (Except.ok.inj h).symm⟩

theorem smUpdate_frame {y : NumV} {s t : State} (h : smUpdate y s = .ok t) :
    ∃ v, t = { s with smooth := some v } := by
  simp only [smUpdate, bind_eq_ok] at h
  obtain ⟨_, -, _, -, _, -, _, -, _, -, _, -, v, -, h⟩ := h
  exact ⟨v, (Except.ok.inj h).symm⟩

/-- `PID_INIT` writes ordered bounds and a positive period, and nothing else (R161). -/
theorem pidInit_frame {lo hi p : NumV} {s t : State} (h : pidInit lo hi p s = .ok t) :
    ∃ lo' hi' p', lo' ≤ hi' ∧ 0 < p' ∧ t = { s with minOut := some lo', maxOut := some hi', ts := some p' } := by
  simp only [pidInit, bind_eq_ok] at h
  obtain ⟨a, -, b, -, c, -, h⟩ := h
  split at h
  · exact ⟨a, b, c, ‹_ ∧ _›.1, ‹_ ∧ _›.2, (Except.ok.inj h).symm⟩
  · cases h

/-- `PID_SETPID` writes the gains alone (R165). -/
theorem pidSetpid_frame {p i d : NumV} {s t : State} (h : pidSetpid p i d s = .ok t) :
    ∃ p' i' d', t = { s with kp := some p', ki := some i', kd := some d' } := by
  simp only [pidSetpid, bind_eq_ok] at h
  obtain ⟨_, -, p', -, i', -, d', -, h⟩ := h
  exact ⟨p', i', d', (Except.ok.inj h).symm⟩

/-- `PID_SETPOINT` writes the setpoint alone, within the bounds (R166). -/
theorem pidSetpoint_frame {v : NumV} {s t : State} (h : pidSetpoint v s = .ok t) :
    ∃ w lo hi, s.minOut = some lo ∧ s.maxOut = some hi ∧ t = { s with setpoint := some (clamp w lo hi) } := by
  simp only [pidSetpoint, bind_eq_ok] at h
  obtain ⟨⟨lo, hi, p⟩, hr, w, -, h⟩ := h
  exact ⟨w, lo, hi, (pidReady_eq_ok.mp hr).1, (pidReady_eq_ok.mp hr).2.1, (Except.ok.inj h).symm⟩

/-- `PID_UPDATE` writes the integrator, the output (clamped) and the previous error, and nothing else (R163). -/
theorem pidUpdate_frame {y : NumV} {s t : State} (h : pidUpdate y s = .ok t) :
    ∃ i u e lo hi, s.minOut = some lo ∧ s.maxOut = some hi ∧
      t = { s with integ := i, output := clamp u lo hi, ePrev := e } := by
  simp only [pidUpdate, bind_eq_ok] at h
  obtain ⟨⟨lo, hi, p⟩, hr, _, -, _, -, _, -, _, -, _, -, e, -, _, -, _, -, _, -, _, -, _, -, _, -, _, -, _, -,
    u, -, i, -, h⟩ := h
  exact ⟨i, u, e, lo, hi, (pidReady_eq_ok.mp hr).1, (pidReady_eq_ok.mp hr).2.1, (Except.ok.inj h).symm⟩

/-- A gain operation writes the gains alone. -/
theorem stepGains_frame {f g h : NumV → Except Refusal NumV} {s t : State} (hs : stepGains f g h s = .ok t) :
    ∃ p i d, t = { s with kp := some p, ki := some i, kd := some d } := by
  simp only [stepGains, bind_eq_ok] at hs
  obtain ⟨_, -, _, -, _, -, _, -, _, -, _, -, hs⟩ := hs
  exact pidSetpid_frame hs

/-- What a digit command can do: append and echo within the capacity, nothing beyond it (R187). -/
theorem cmdDigit_cases {d : Digit} {s t : State} (h : cmdDigit d s = .ok t) :
    (s.cmdBuf.length < s.cfg.cmdBufMax - 1 ∧
      t = { s with cmdBuf := s.cmdBuf ++ [d], txLog := s.txLog ++ [.echo d] }) ∨
    (¬ s.cmdBuf.length < s.cfg.cmdBufMax - 1 ∧ t = s) := by
  unfold cmdDigit at h
  split at h
  · exact .inl ⟨‹_›, (Except.ok.inj h).symm⟩
  · exact .inr ⟨‹_›, (Except.ok.inj h).symm⟩

/-- What a commit can do: nothing, or write the setpoint and clear the buffer (R188). -/
theorem cmdCommit_cases {s t : State} (h : cmdCommit s = .ok t) :
    t = s ∨ ∃ v, t = { s with setpoint := some v, cmdBuf := [] } := by
  unfold cmdCommit at h
  split at h
  · exact .inl (Except.ok.inj h).symm
  · obtain ⟨_, -, h⟩ := bind_eq_ok.mp h
    obtain ⟨s1, h1, h⟩ := bind_eq_ok.mp h
    obtain ⟨w, lo, hi, -, -, rfl⟩ := pidSetpoint_frame h1
    exact .inr ⟨_, (Except.ok.inj h).symm⟩

/-- A status command emits one record and changes nothing else (R189). -/
theorem cmdStatus_frame {s t : State} (h : cmdStatus s = .ok t) :
    ∃ x, t = { s with txLog := s.txLog ++ [.status x] } := by
  simp only [cmdStatus, bind_eq_ok] at h
  obtain ⟨_, -, _, -, _, -, _, -, h⟩ := h
  exact ⟨_, (Except.ok.inj h).symm⟩

/-- Every command writes gains, setpoint, buffer and output stream at most, leaves none of the fields unwritten, and
keeps the buffer within its capacity. -/
theorem performCommand_frame {c : Command} {s t : State} (h : performCommand c s = .ok t) :
    t = { s with kp := t.kp, ki := t.ki, kd := t.kd, setpoint := t.setpoint, cmdBuf := t.cmdBuf, txLog := t.txLog } ∧
    (s.kp.isSome → t.kp.isSome) ∧ (s.ki.isSome → t.ki.isSome) ∧ (s.kd.isSome → t.kd.isSome) ∧
    (s.setpoint.isSome → t.setpoint.isSome) ∧
    (s.cmdBuf.length ≤ s.cfg.cmdBufMax - 1 → t.cmdBuf.length ≤ s.cfg.cmdBufMax - 1) := by
  have gains : ∀ {f g k : NumV → Except Refusal NumV}, stepGains f g k s = .ok t → _ := fun h' => stepGains_frame h'
  cases c with
  | kpUp => obtain ⟨p, i, d, rfl⟩ := gains h; simp
  | kpDn => obtain ⟨p, i, d, rfl⟩ := gains h; simp
  | kiUp => obtain ⟨p, i, d, rfl⟩ := gains h; simp
  | kiDn => obtain ⟨p, i, d, rfl⟩ := gains h; simp
  | kdUp => obtain ⟨p, i, d, rfl⟩ := gains h; simp
  | kdDn => obtain ⟨p, i, d, rfl⟩ := gains h; simp
  | digit d =>
    obtain ⟨hl, rfl⟩ | ⟨-, rfl⟩ := cmdDigit_cases h
    · simp; omega
    · simp
  | commit =>
    obtain rfl | ⟨v, rfl⟩ := cmdCommit_cases h
    · simp
    · simp
  | status => obtain ⟨x, rfl⟩ := cmdStatus_frame h; simp

end Sys2Proof.Machine
end

