-- ==== Sys2Proof/Laws/Exec.lean ====
section
/-! SUPPORT. One inversion lemma for each operation: what it has done where `exec` answers a next state. -/

namespace Sys2Proof.Machine

variable {s t : State}

theorem exec_reset {led0 : Option Bit} {lvl0 : LevelDraws} (h : exec (.reset led0 lvl0) s = .next t) :
    t = resetState led0 lvl0 s := (Host.Outcome.next.inj h).symm

/-! ### Handlers -/

theorem exec_qaRise (h : exec .qaRise s = .next t) :
    handlerEnabled .qaRise s = true ∧ t = qaRiseBody (writePend .qaRise false s) := takeInterrupt_eq_next.mp h

theorem exec_qbEdge (h : exec .qbEdge s = .next t) :
    handlerEnabled .qbEdge s = true ∧ t = { writePend .qbEdge false s with prevB := !s.prevB } :=
  takeInterrupt_eq_next.mp h

theorem exec_pwRise (h : exec .pwRise s = .next t) :
    handlerEnabled .pwRise s = true ∧ t = { writePend .pwRise false s with riseUs := s.usClock } :=
  takeInterrupt_eq_next.mp h

theorem exec_pwFall (h : exec .pwFall s = .next t) :
    handlerEnabled .pwFall s = true ∧
      t = { writePend .pwFall false s with widthUs := s.usClock - s.riseUs, usClock := 0#32 } :=
  takeInterrupt_eq_next.mp h

theorem exec_leTick (h : exec .leTick s = .next t) :
    handlerEnabled .leTick s = true ∧ t = { writePend .leTick false s with tickCount := s.tickCount + 1#32 } :=
  takeInterrupt_eq_next.mp h

theorem exec_liIndex (h : exec .liIndex s = .next t) :
    handlerEnabled .liIndex s = true ∧
      t = { writePend .liIndex false s with lastFullRevCount := s.tickCount, tickCount := 0#32 } :=
  takeInterrupt_eq_next.mp h

/-- An A-rise writes `pos`, `led`, `faulted` and its pending bit at most. -/
theorem qaRiseBody_frame (s : State) :
    qaRiseBody s = { s with pos := (qaRiseBody s).pos, faulted := (qaRiseBody s).faulted, led := !s.led } := by
  unfold qaRiseBody countRise
  split <;> rfl

/-! ### Smoother, controller, commands -/

theorem exec_smSeed {y : NumV} (h : exec (.smSeed y) s = .next t) : ∃ v, t = { s with smooth := some v } :=
  smSeed_frame (finish_eq_next.mp h)

theorem exec_smUpdate {y : NumV} (h : exec (.smUpdate y) s = .next t) : ∃ v, t = { s with smooth := some v } :=
  smUpdate_frame (finish_eq_next.mp h)

theorem exec_pidInit {lo hi p : NumV} (h : exec (.pidInit lo hi p) s = .next t) :
    ∃ lo' hi' p', lo' ≤ hi' ∧ 0 < p' ∧ t = { s with minOut := some lo', maxOut := some hi', ts := some p' } :=
  pidInit_frame (finish_eq_next.mp h)

theorem exec_pidUpdate {y : NumV} (h : exec (.pidUpdate y) s = .next t) :
    ∃ i u e lo hi, s.minOut = some lo ∧ s.maxOut = some hi ∧
      t = { s with integ := i, output := clamp u lo hi, ePrev := e } :=
  pidUpdate_frame (finish_eq_next.mp h)

theorem exec_pidSetpid {p i d : NumV} (h : exec (.pidSetpid p i d) s = .next t) :
    ∃ p' i' d', t = { s with kp := some p', ki := some i', kd := some d' } :=
  pidSetpid_frame (finish_eq_next.mp h)

theorem exec_pidSetpoint {v : NumV} (h : exec (.pidSetpoint v) s = .next t) :
    ∃ w lo hi, s.minOut = some lo ∧ s.maxOut = some hi ∧ t = { s with setpoint := some (clamp w lo hi) } :=
  pidSetpoint_frame (finish_eq_next.mp h)

/-- A command operation on a trace line of its own is `performCommand` of the state. -/
theorem exec_command (c : Command) (s : State) : exec (instrOfCommand c) s = finish (performCommand c s) := by
  cases c <;> rfl

/-! ### Loop phases and emission -/

theorem exec_s1Sample {y : NumV} (h : exec (.s1Sample y) s = .next t) :
    s.ph = .s1 ∧ ∃ v, t = { s with smooth := some v, ph := .s2 } := by
  obtain ⟨hp, h⟩ := phaseStep_eq_next.mp h
  obtain ⟨s1, h1, h⟩ := bind_eq_ok.mp h
  obtain ⟨v, rfl⟩ := smUpdate_frame h1
  exact ⟨hp, v, (Except.ok.inj h).symm⟩

/-- S2 takes no byte, or takes the oldest and performs its command. -/
theorem exec_s2Serial (h : exec .s2Serial s = .next t) :
    s.ph = .s2 ∧ (t = { s with ph := .s3 } ∨
      ∃ b rest u, s.rxFifo = b :: rest ∧ performCommand (decodeCommand b) { s with rxFifo := rest } = .ok u ∧
        t = { u with ph := .s3 }) := by
  obtain ⟨hp, h⟩ := phaseStep_eq_next.mp h
  refine ⟨hp, ?_⟩
  unfold s2Serial at h
  split at h
  · split at h
    · exact .inl (Except.ok.inj h).symm
    · rename_i b s1 hg
      unfold rxGetc at hg
      split at hg
      · cases hg
      · rename_i b' rest hr
        cases hg
        obtain ⟨u, hu, h⟩ := bind_eq_ok.mp h
        exact .inr ⟨_, _, u, hr, hu, (Except.ok.inj h).symm⟩
  · exact .inl (Except.ok.inj h).symm

theorem exec_s3Control (h : exec .s3Control s = .next t) :
    s.ph = .s3 ∧ ∃ i u e lo hi, s.minOut = some lo ∧ s.maxOut = some hi ∧
      t = { s with integ := i, output := clamp u lo hi, ePrev := e, steerDuty := some (clamp u lo hi),
                   ph := .s4 } := by
  obtain ⟨hp, h⟩ := phaseStep_eq_next.mp h
  obtain ⟨y, -, h⟩ := bind_eq_ok.mp h
  obtain ⟨s1, h1, h⟩ := bind_eq_ok.mp h
  obtain ⟨i, u, e, lo, hi, hl, hh, rfl⟩ := pidUpdate_frame h1
  exact ⟨hp, i, u, e, lo, hi, hl, hh, (Except.ok.inj h).symm⟩

/-- The I2C branch of S4 writes the latch at most, and moves the counter on only for a distance that is not written. -/
theorem latchDistance_frame (d : Option Word) (s : State) :
    ∃ r c, (c = s.choices ∨ d = none ∧ c = s.choices + 1) ∧
      latchDistance d s = { s with rangeLatch := r, choices := c } := by
  unfold latchDistance
  split
  · exact ⟨_, _, .inl rfl, rfl⟩
  · cases d with
    | none => exact ⟨_, _, .inr ⟨rfl, rfl⟩, rfl⟩
    | some d => exact ⟨_, _, .inl rfl, rfl⟩

theorem exec_s4Range {rdy : Option Bit} {d : Option Word} (h : exec (.s4Range rdy d) s = .next t) :
    s.ph = .s4 ∧ ∃ r c, (c = s.choices ∨ d = none ∧ c = s.choices + 1) ∧
      t = { s with rangeLatch := r, choices := c, ph := .s5 } := by
  obtain ⟨hp, h⟩ := phaseStep_eq_next.mp h
  refine ⟨hp, ?_⟩
  unfold s4Range at h
  split at h
  · exact ⟨_, _, .inl rfl, (Except.ok.inj h).symm⟩
  · obtain ⟨r, c, hc, hl⟩ := latchDistance_frame d s
    rw [hl] at h
    exact ⟨r, c, hc, (Except.ok.inj h).symm⟩

theorem exec_s5Orient {o : OriSample} (h : exec (.s5Orient o) s = .next t) :
    s.ph = .s5 ∧ t = { s with cal := some o.cal, quat := some o.quat, ph := .s6 } :=
  have h := phaseStep_eq_next.mp h
  ⟨h.1, (Except.ok.inj h.2).symm⟩

theorem exec_s6Emit (h : exec .s6Emit s = .next t) :
    s.ph = .s6 ∧ s.em = .idle ∧
      ((emissionDue s.msClock s.prevEmitMs s.cfg.timestepMs = false ∧ t = { s with ph := .s1 }) ∨
       (emissionDue s.msClock s.prevEmitMs s.cfg.timestepMs = true ∧
        ∃ sa, t = { s with prevEmitMs := s.msClock, em := .e1,
                           emRec := { s.emRec with t := some s.msClock, sa := some sa } })) := by
  obtain ⟨⟨hp, he⟩, h⟩ := emitStep_eq_next.mp h
  refine ⟨hp, he, ?_⟩
  change (if emissionDue s.msClock s.prevEmitMs s.cfg.timestepMs = true then _ else _) = _ at h
  by_cases hd : emissionDue s.msClock s.prevEmitMs s.cfg.timestepMs = true
  · rw [if_pos hd] at h
    obtain ⟨v, -, h⟩ := bind_eq_ok.mp h
    obtain ⟨m, -, h⟩ := bind_eq_ok.mp h
    exact .inr ⟨hd, m.floor, (Except.ok.inj h).symm⟩
  · rw [if_neg hd] at h
    exact .inl ⟨by simpa using hd, (Except.ok.inj h).symm⟩

theorem exec_emOdo (h : exec .emOdo s = .next t) :
    s.ph = .s6 ∧ s.em = .e1 ∧ t = { s with emRec := { s.emRec with odo := some s.pos }, em := .e2 } :=
  have h := emitStep_eq_next.mp h
  ⟨h.1.1, h.1.2, (Except.ok.inj h.2).symm⟩

theorem exec_emSend (h : exec .emSend s = .next t) :
    s.ph = .s6 ∧ s.em = .e2 ∧ ∃ x, t = { s with txLog := s.txLog ++ [.telem x], em := .idle, ph := .s1 } := by
  obtain ⟨⟨hp, he⟩, h⟩ := emitStep_eq_next.mp h
  simp only [emSend, bind_eq_ok] at h
  obtain ⟨_, -, _, -, _, -, _, -, _, -, h⟩ := h
  exact ⟨hp, he, _, (Except.ok.inj h).symm⟩

/-! ### Startup -/

theorem exec_st1 (h : exec .st1 s = .next t) : s.ph = .st1 ∧ t = { s with ph := .st2 } :=
  have h := phaseStep_eq_next.mp h
  ⟨h.1, (Except.ok.inj h.2).symm⟩

theorem exec_st2 (h : exec .st2 s = .next t) : s.ph = .st2 ∧ t = { s with clkRun := true, ph := .st3 } :=
  have h := phaseStep_eq_next.mp h
  ⟨h.1, (Except.ok.inj h.2).symm⟩

theorem exec_st3 (h : exec .st3 s = .next t) :
    s.ph = .st3 ∧ ∃ lo hi p kp ki kd sp, lo ≤ hi ∧ 0 < p ∧
      t = { s with minOut := some lo, maxOut := some hi, ts := some p, kp := some kp, ki := some ki,
                   kd := some kd, setpoint := some sp, ph := .st4 } := by
  obtain ⟨hp, h⟩ := phaseStep_eq_next.mp h
  obtain ⟨s1, h1, h⟩ := bind_eq_ok.mp h
  obtain ⟨s2, h2, h⟩ := bind_eq_ok.mp h
  obtain ⟨s3, h3, h⟩ := bind_eq_ok.mp h
  obtain ⟨lo, hi, p, hl, hq, rfl⟩ := pidInit_frame h1
  obtain ⟨kp, ki, kd, rfl⟩ := pidSetpid_frame h2
  obtain ⟨w, lo', hi', -, -, rfl⟩ := pidSetpoint_frame h3
  exact ⟨hp, lo, hi, p, kp, ki, kd, _, hl, hq, (Except.ok.inj h).symm⟩

theorem exec_st4 (h : exec .st4 s = .next t) : s.ph = .st4 ∧ t = { s with ph := .st5 } :=
  have h := phaseStep_eq_next.mp h
  ⟨h.1, (Except.ok.inj h.2).symm⟩

theorem exec_st5 {r : Bit} (h : exec (.st5 r) s = .next t) :
    s.ph = .st5 ∧ ((r = true ∧ t = { s with ph := .st6 }) ∨
      (r = false ∧ t = { s with
        readyFail := s.readyFail + 1, led := !s.led,
        txLog := s.txLog ++ (if s.readyFail + 1 = s.cfg.readyDiagN then [.diag] else []) })) := by
  obtain ⟨hp, h⟩ := phaseStep_eq_next.mp h
  refine ⟨hp, ?_⟩
  cases r with
  | true => exact .inl ⟨rfl, (Except.ok.inj h).symm⟩
  | false =>
    refine .inr ⟨rfl, ?_⟩
    rw [← Except.ok.inj h]
    split
    · rfl
    · simp

theorem exec_st6 (h : exec .st6 s = .next t) :
    s.ph = .st6 ∧ t = { s with steerPeriodUs := some s.cfg.pwmPeriodUs,
                               throttlePeriodUs := some s.cfg.pwmPeriodUs, ph := .st7 } :=
  have h := phaseStep_eq_next.mp h
  ⟨h.1, (Except.ok.inj h.2).symm⟩

theorem exec_st7 (h : exec .st7 s = .next t) :
    s.ph = .st7 ∧ ∃ d, t = { s with throttleDuty := some d, ph := .st8 } := by
  obtain ⟨hp, h⟩ := phaseStep_eq_next.mp h
  obtain ⟨d, -, h⟩ := bind_eq_ok.mp h
  exact ⟨hp, d, (Except.ok.inj h).symm⟩

theorem exec_st8 {y : NumV} (h : exec (.st8 y) s = .next t) :
    s.ph = .st8 ∧ ∃ v, t = { s with smooth := some v, ph := .st9 } := by
  obtain ⟨hp, h⟩ := phaseStep_eq_next.mp h
  obtain ⟨s1, h1, h⟩ := bind_eq_ok.mp h
  obtain ⟨v, rfl⟩ := smSeed_frame h1
  exact ⟨hp, v, (Except.ok.inj h).symm⟩

theorem exec_st9 {b : Bit} (h : exec (.st9 b) s = .next t) :
    s.ph = .st9 ∧ t = { s with prevB := s.lvl.encB, ph := .st10 } :=
  have h := phaseStep_eq_next.mp h
  ⟨h.1, (Except.ok.inj h.2).symm⟩

theorem exec_st10 (h : exec .st10 s = .next t) :
    s.ph = .st10 ∧ t = { s with en := enableSources s.cfg s.en, ph := .s1 } :=
  have h := phaseStep_eq_next.mp h
  ⟨h.1, (Except.ok.inj h.2).symm⟩

/-! ### Environment -/

/-- Requests change the pending bits alone. -/
theorem requests_frame (ks : List Source) (s : State) :
    ks.foldl (fun t k => request k t) s = { s with pend := (ks.foldl (fun t k => request k t) s).pend } := by
  induction ks generalizing s with
  | nil => rfl
  | cons k ks ih =>
    rw [List.foldl_cons, ih, request_frame]

/-- Requests set the pending bits of the sources in the list that are enabled, and no others. -/
theorem requests_pend (ks : List Source) (s : State) (j : Source) :
    getSource (ks.foldl (fun t k => request k t) s).pend j =
      (getSource s.pend j || (decide (j ∈ ks) && getSource s.en j)) := by
  induction ks generalizing s with
  | nil => simp
  | cons k ks ih =>
    have hen : (request k s).en = s.en := by rw [request_frame]
    rw [List.foldl_cons, ih, request_pend, hen]
    by_cases h : j = k
    · subst h
      cases getSource s.pend j <;> cases getSource s.en j <;> simp
    · simp [h]

theorem exec_envEdge {l : Line} (h : exec (.envEdge l) s = .next t) :
    t = { s with lvl := toggleLevel s.lvl l, pend := t.pend } ∧
      ∀ j, getSource t.pend j = (getSource s.pend j ||
        (decide (j ∈ edgeSources l (!getLevel s.lvl l)) && getSource s.en j)) := by
  obtain rfl := Host.Outcome.next.inj h
  have hl : getLevel (toggleLevel s.lvl l) l = !getLevel s.lvl l := by simp
  refine ⟨requests_frame _ _, fun j => ?_⟩
  simp only [edgeState, hl, requests_pend]

theorem exec_envRx {b : Byte} (h : exec (.envRx b) s = .next t) : t = { s with rxFifo := s.rxFifo ++ [b] } :=
  (Host.Outcome.next.inj h).symm

theorem exec_envMs {n : Nat} (h : exec (.envMs n) s = .next t) :
    s.clkRun = true ∧ t = { s with msClock := s.msClock + BitVec.ofNat 32 n } :=
  clockStep_eq_next.mp (by simpa only [exec, execEnvMs] using h)

theorem exec_envUs {n : Nat} (h : exec (.envUs n) s = .next t) :
    s.clkRun = true ∧ t = { s with usClock := s.usClock + BitVec.ofNat 32 n } :=
  clockStep_eq_next.mp (by simpa only [exec, execEnvUs] using h)

/-! ### All operations at once -/

/-- To show `P i t` where `exec i s` answers `t`: one case for each thing an operation can do. -/
theorem exec_cases {i : Instr} {s t : State} (h : exec i s = .next t) (P : Instr → State → Prop)
    (reset : ∀ l lv, P (.reset l lv) (resetState l lv s))
    (qaRise : handlerEnabled .qaRise s = true → P .qaRise (qaRiseBody (writePend .qaRise false s)))
    (qbEdge : handlerEnabled .qbEdge s = true →
      P .qbEdge { writePend .qbEdge false s with prevB := !s.prevB })
    (pwRise : handlerEnabled .pwRise s = true →
      P .pwRise { writePend .pwRise false s with riseUs := s.usClock })
    (pwFall : handlerEnabled .pwFall s = true →
      P .pwFall { writePend .pwFall false s with widthUs := s.usClock - s.riseUs, usClock := 0#32 })
    (leTick : handlerEnabled .leTick s = true →
      P .leTick { writePend .leTick false s with tickCount := s.tickCount + 1#32 })
    (liIndex : handlerEnabled .liIndex s = true →
      P .liIndex { writePend .liIndex false s with lastFullRevCount := s.tickCount, tickCount := 0#32 })
    (smSeed : ∀ y v, P (.smSeed y) { s with smooth := some v })
    (smUpdate : ∀ y v, P (.smUpdate y) { s with smooth := some v })
    (pidInit : ∀ a b c lo hi p, lo ≤ hi → 0 < p →
      P (.pidInit a b c) { s with minOut := some lo, maxOut := some hi, ts := some p })
    (pidUpdate : ∀ y i u e lo hi, s.minOut = some lo → s.maxOut = some hi →
      P (.pidUpdate y) { s with integ := i, output := clamp u lo hi, ePrev := e })
    (pidSetpid : ∀ a b c p i d, P (.pidSetpid a b c) { s with kp := some p, ki := some i, kd := some d })
    (pidSetpoint : ∀ v w, P (.pidSetpoint v) { s with setpoint := some w })
    (s1 : s.ph = .s1 → ∀ y v, P (.s1Sample y) { s with smooth := some v, ph := .s2 })
    (s2a : s.ph = .s2 → P .s2Serial { s with ph := .s3 })
    (s2b : s.ph = .s2 → ∀ b rest u, s.rxFifo = b :: rest →
      performCommand (decodeCommand b) { s with rxFifo := rest } = .ok u → P .s2Serial { u with ph := .s3 })
    (s3 : s.ph = .s3 → ∀ i u e lo hi, s.minOut = some lo → s.maxOut = some hi →
      P .s3Control { s with
        integ := i, output := clamp u lo hi, ePrev := e, steerDuty := some (clamp u lo hi), ph := .s4 })
    (s4 : s.ph = .s4 → ∀ rdy d r c, (c = s.choices ∨ d = none ∧ c = s.choices + 1) →
      P (.s4Range rdy d) { s with rangeLatch := r, choices := c, ph := .s5 })
    (s5 : s.ph = .s5 → ∀ o, P (.s5Orient o) { s with cal := some o.cal, quat := some o.quat, ph := .s6 })
    (s6a : s.ph = .s6 → s.em = .idle → P .s6Emit { s with ph := .s1 })
    (s6b : s.ph = .s6 → s.em = .idle → emissionDue s.msClock s.prevEmitMs s.cfg.timestepMs = true → ∀ sa,
      P .s6Emit { s with
        prevEmitMs := s.msClock, em := .e1, emRec := { s.emRec with t := some s.msClock, sa := some sa } })
    (emOdo : s.ph = .s6 → s.em = .e1 →
      P .emOdo { s with emRec := { s.emRec with odo := some s.pos }, em := .e2 })
    (emSend : s.ph = .s6 → s.em = .e2 → ∀ x,
      P .emSend { s with txLog := s.txLog ++ [.telem x], em := .idle, ph := .s1 })
    (st1 : s.ph = .st1 → P .st1 { s with ph := .st2 })
    (st2 : s.ph = .st2 → P .st2 { s with clkRun := true, ph := .st3 })
    (st3 : s.ph = .st3 → ∀ lo hi p kp ki kd sp, lo ≤ hi → 0 < p →
      P .st3 { s with
        minOut := some lo, maxOut := some hi, ts := some p, kp := some kp, ki := some ki, kd := some kd,
        setpoint := some sp, ph := .st4 })
    (st4 : s.ph = .st4 → P .st4 { s with ph := .st5 })
    (st5a : s.ph = .st5 → P (.st5 true) { s with ph := .st6 })
    (st5b : s.ph = .st5 → P (.st5 false) { s with
        readyFail := s.readyFail + 1, led := !s.led,
        txLog := s.txLog ++ (if s.readyFail + 1 = s.cfg.readyDiagN then [.diag] else []) })
    (st6 : s.ph = .st6 → P .st6 { s with
        steerPeriodUs := some s.cfg.pwmPeriodUs, throttlePeriodUs := some s.cfg.pwmPeriodUs, ph := .st7 })
    (st7 : s.ph = .st7 → ∀ d, P .st7 { s with throttleDuty := some d, ph := .st8 })
    (st8 : s.ph = .st8 → ∀ y v, P (.st8 y) { s with smooth := some v, ph := .st9 })
    (st9 : s.ph = .st9 → ∀ b, P (.st9 b) { s with prevB := s.lvl.encB, ph := .st10 })
    (st10 : s.ph = .st10 → P .st10 { s with en := enableSources s.cfg s.en, ph := .s1 })
    (envEdge : ∀ l, t = { s with lvl := toggleLevel s.lvl l, pend := t.pend } →
      (∀ j, getSource t.pend j = (getSource s.pend j ||
        (decide (j ∈ edgeSources l (!getLevel s.lvl l)) && getSource s.en j))) → P (.envEdge l) t)
    (envRx : ∀ b, P (.envRx b) { s with rxFifo := s.rxFifo ++ [b] })
    (envMs : s.clkRun = true → ∀ n, P (.envMs n) { s with msClock := s.msClock + BitVec.ofNat 32 n })
    (envUs : s.clkRun = true → ∀ n, P (.envUs n) { s with usClock := s.usClock + BitVec.ofNat 32 n })
    (cmd : ∀ c, performCommand c s = .ok t → P (instrOfCommand c) t) : P i t := by
  cases i
  case reset => rw [exec_reset h]; apply reset
  case qaRise => obtain ⟨hh, rfl⟩ := exec_qaRise h; exact qaRise hh
  case qbEdge => obtain ⟨hh, rfl⟩ := exec_qbEdge h; exact qbEdge hh
  case pwRise => obtain ⟨hh, rfl⟩ := exec_pwRise h; exact pwRise hh
  case pwFall => obtain ⟨hh, rfl⟩ := exec_pwFall h; exact pwFall hh
  case leTick => obtain ⟨hh, rfl⟩ := exec_leTick h; exact leTick hh
  case liIndex => obtain ⟨hh, rfl⟩ := exec_liIndex h; exact liIndex hh
  case smSeed => obtain ⟨v, rfl⟩ := exec_smSeed h; apply smSeed
  case smUpdate => obtain ⟨v, rfl⟩ := exec_smUpdate h; apply smUpdate
  case pidInit => obtain ⟨a, b, c, hl, hp, rfl⟩ := exec_pidInit h; apply pidInit <;> assumption
  case pidUpdate => obtain ⟨_, _, _, _, _, _, _, rfl⟩ := exec_pidUpdate h; apply pidUpdate <;> assumption
  case pidSetpid => obtain ⟨_, _, _, rfl⟩ := exec_pidSetpid h; apply pidSetpid
  case pidSetpoint => obtain ⟨_, _, _, -, -, rfl⟩ := exec_pidSetpoint h; apply pidSetpoint
  case s1Sample => obtain ⟨hp, v, rfl⟩ := exec_s1Sample h; exact s1 hp _ _
  case s2Serial =>
    obtain ⟨hp, rfl | ⟨b, rest, u, hr, hu, rfl⟩⟩ := exec_s2Serial h
    · exact s2a hp
    · exact s2b hp _ _ _ hr hu
  case s3Control => obtain ⟨hp, _, _, _, _, _, h1, h2, rfl⟩ := exec_s3Control h; exact s3 hp _ _ _ _ _ h1 h2
  case s4Range => obtain ⟨hp, _, _, hc, rfl⟩ := exec_s4Range h; exact s4 hp _ _ _ _ hc
  case s5Orient => obtain ⟨hp, rfl⟩ := exec_s5Orient h; exact s5 hp _
  case s6Emit =>
    obtain ⟨hp, he, ⟨-, rfl⟩ | ⟨hd, _, rfl⟩⟩ := exec_s6Emit h
    · exact s6a hp he
    · exact s6b hp he hd _
  case emOdo => obtain ⟨hp, he, rfl⟩ := exec_emOdo h; exact emOdo hp he
  case emSend => obtain ⟨hp, he, _, rfl⟩ := exec_emSend h; exact emSend hp he _
  case st1 => obtain ⟨hp, rfl⟩ := exec_st1 h; exact st1 hp
  case st2 => obtain ⟨hp, rfl⟩ := exec_st2 h; exact st2 hp
  case st3 => obtain ⟨hp, _, _, _, _, _, _, _, hl, hq, rfl⟩ := exec_st3 h; exact st3 hp _ _ _ _ _ _ _ hl hq
  case st4 => obtain ⟨hp, rfl⟩ := exec_st4 h; exact st4 hp
  case st5 =>
    obtain ⟨hp, ⟨rfl, rfl⟩ | ⟨rfl, rfl⟩⟩ := exec_st5 h
    · exact st5a hp
    · exact st5b hp
  case st6 => obtain ⟨hp, rfl⟩ := exec_st6 h; exact st6 hp
  case st7 => obtain ⟨hp, _, rfl⟩ := exec_st7 h; exact st7 hp _
  case st8 => obtain ⟨hp, _, rfl⟩ := exec_st8 h; exact st8 hp _ _
  case st9 => obtain ⟨hp, rfl⟩ := exec_st9 h; exact st9 hp _
  case st10 => obtain ⟨hp, rfl⟩ := exec_st10 h; exact st10 hp
  case envEdge l => obtain ⟨h1, h2⟩ := exec_envEdge h; exact envEdge _ h1 h2
  case envRx => rw [exec_envRx h]; apply envRx
  case envMs => obtain ⟨hc, rfl⟩ := exec_envMs h; exact envMs hc _
  case envUs => obtain ⟨hc, rfl⟩ := exec_envUs h; exact envUs hc _
  case cmdKpUp => exact cmd .kpUp (finish_eq_next.mp h)
  case cmdKpDn => exact cmd .kpDn (finish_eq_next.mp h)
  case cmdKiUp => exact cmd .kiUp (finish_eq_next.mp h)
  case cmdKiDn => exact cmd .kiDn (finish_eq_next.mp h)
  case cmdKdUp => exact cmd .kdUp (finish_eq_next.mp h)
  case cmdKdDn => exact cmd .kdDn (finish_eq_next.mp h)
  case cmdDigit d => exact cmd (.digit d) (finish_eq_next.mp h)
  case cmdCommit => exact cmd .commit (finish_eq_next.mp h)
  case cmdStatus => exact cmd .status (finish_eq_next.mp h)

end Sys2Proof.Machine
end

