-- ==== Sys2Proof/Laws/PerInstr.lean ====
section
/-! SUPPORT. What holds of every instruction as syntax, one lemma per constructor: the first byte of its encoding is
its identifier of 30:R89, or, for a command operation, a byte 30:R84 gives it. -/

namespace Sys2Proof.Laws.LeadingByte

/-- The identifier of R89; none for the command operations, which have none. -/
def traceIdOf : Instr → Option Nat
  | .reset _ _ => some 0x00
  | .qaRise => some 0x01
  | .qbEdge => some 0x02
  | .pwRise => some 0x03
  | .pwFall => some 0x04
  | .leTick => some 0x05
  | .liIndex => some 0x06
  | .smSeed _ => some 0x10
  | .smUpdate _ => some 0x11
  | .pidInit _ _ _ => some 0x20
  | .pidUpdate _ => some 0x21
  | .pidSetpid _ _ _ => some 0x22
  | .pidSetpoint _ => some 0x23
  | .s1Sample _ => some 0x30
  | .s2Serial => some 0x31
  | .s3Control => some 0x32
  | .s4Range _ _ => some 0x33
  | .s5Orient _ => some 0x34
  | .s6Emit => some 0x35
  | .emOdo => some 0x36
  | .emSend => some 0x37
  | .st1 => some 0x40
  | .st2 => some 0x41
  | .st3 => some 0x42
  | .st4 => some 0x43
  | .st5 _ => some 0x44
  | .st6 => some 0x45
  | .st7 => some 0x46
  | .st8 _ => some 0x47
  | .st9 _ => some 0x48
  | .st10 => some 0x49
  | .envEdge _ => some 0x50
  | .envRx _ => some 0x51
  | .envMs _ => some 0x52
  | .envUs _ => some 0x53
  | .cmdKpUp => none
  | .cmdKpDn => none
  | .cmdKiUp => none
  | .cmdKiDn => none
  | .cmdKdUp => none
  | .cmdKdDn => none
  | .cmdDigit _ => none
  | .cmdCommit => none
  | .cmdStatus => none

/-- `i` is encoded as a trace word that begins with its identifier, or as a command byte that selects it. -/
def Statement (i : Instr) : Prop :=
  match traceIdOf i, encode i with
  | some n, .word (b :: _) => b.toNat = n
  | none, .command b => instrOfCommand (decodeCommand b) = i
  | _, _ => False

theorem reset (l : Option Bit) (lv : LevelDraws) : Statement (.reset l lv) := rfl
theorem qaRise : Statement .qaRise := rfl
theorem qbEdge : Statement .qbEdge := rfl
theorem pwRise : Statement .pwRise := rfl
theorem pwFall : Statement .pwFall := rfl
theorem leTick : Statement .leTick := rfl
theorem liIndex : Statement .liIndex := rfl
theorem smSeed (y : NumV) : Statement (.smSeed y) := rfl
theorem smUpdate (y : NumV) : Statement (.smUpdate y) := rfl
theorem pidInit (lo hi t : NumV) : Statement (.pidInit lo hi t) := rfl
theorem pidUpdate (y : NumV) : Statement (.pidUpdate y) := rfl
theorem pidSetpid (p i d : NumV) : Statement (.pidSetpid p i d) := rfl
theorem pidSetpoint (v : NumV) : Statement (.pidSetpoint v) := rfl
theorem s1Sample (y : NumV) : Statement (.s1Sample y) := rfl
theorem s2Serial : Statement .s2Serial := rfl
theorem s3Control : Statement .s3Control := rfl
theorem s4Range (rdy : Option Bit) (d : Option Word) : Statement (.s4Range rdy d) := rfl
theorem s5Orient (o : OriSample) : Statement (.s5Orient o) := rfl
theorem s6Emit : Statement .s6Emit := rfl
theorem emOdo : Statement .emOdo := rfl
theorem emSend : Statement .emSend := rfl
theorem st1 : Statement .st1 := rfl
theorem st2 : Statement .st2 := rfl
theorem st3 : Statement .st3 := rfl
theorem st4 : Statement .st4 := rfl
theorem st5 (r : Bit) : Statement (.st5 r) := rfl
theorem st6 : Statement .st6 := rfl
theorem st7 : Statement .st7 := rfl
theorem st8 (y : NumV) : Statement (.st8 y) := rfl
theorem st9 (b : Bit) : Statement (.st9 b) := rfl
theorem st10 : Statement .st10 := rfl
theorem envEdge (l : Line) : Statement (.envEdge l) := rfl
theorem envRx (b : Byte) : Statement (.envRx b) := rfl
theorem envMs (n : Nat) : Statement (.envMs n) := rfl
theorem envUs (n : Nat) : Statement (.envUs n) := rfl
theorem cmdKpUp : Statement .cmdKpUp := rfl
theorem cmdKpDn : Statement .cmdKpDn := rfl
theorem cmdKiUp : Statement .cmdKiUp := rfl
theorem cmdKiDn : Statement .cmdKiDn := rfl
theorem cmdKdUp : Statement .cmdKdUp := rfl
theorem cmdKdDn : Statement .cmdKdDn := rfl
theorem cmdDigit (d : Digit) : Statement (.cmdDigit d) := by
  show instrOfCommand (decodeCommand (commandByte (.digit d))) = .cmdDigit d
  revert d
  decide
theorem cmdCommit : Statement .cmdCommit := rfl
theorem cmdStatus : Statement .cmdStatus := rfl

end Sys2Proof.Laws.LeadingByte
end

