-- ==== Sys2Proof/Laws/Trace.lean ====
section
/-! SUPPORT. No operation reads or writes the trace: `exec` commutes with replacing it. How the host's run unfolds. -/

namespace Sys2Proof.Machine

/-- `s` with another trace. -/
def withTrace (tr : List TraceLine) (s : State) : State := { s with trace := tr }

/-- The trace replaced in the state of a computation. -/
def traceE (tr : List TraceLine) : Except Refusal State → Except Refusal State
  | .ok s => .ok (withTrace tr s)
  | .error r => .error r

/-- The trace replaced in the next state of an outcome. -/
def traceO (tr : List TraceLine) : Out → Out
  | .next s => .next (withTrace tr s)
  | .fault f => .fault f
  | .refused r => .refused r

theorem traceE_bind {α} (tr : List TraceLine) (x : Except Refusal α) (f : α → Except Refusal State) :
    traceE tr (x >>= f) = x >>= fun a => traceE tr (f a) := by
  cases x <;> rfl

theorem traceE_ok (tr : List TraceLine) (s) : traceE tr (.ok s) = .ok (withTrace tr s) := rfl

theorem traceO_finish (tr : List TraceLine) (x) : traceO tr (finish x) = finish (traceE tr x) := by
  cases x <;> rfl

theorem traceE_ite (tr : List TraceLine) (c : Prop) [Decidable c] (x y) :
    traceE tr (if c then x else y) = if c then traceE tr x else traceE tr y := by
  split <;> rfl

theorem smSeed_withTrace (tr : List TraceLine) (y s) :
    smSeed y (withTrace tr s) = traceE tr (smSeed y s) := by
  simp only [smSeed, traceE_bind, traceE_ok]; rfl

theorem smUpdate_withTrace (tr : List TraceLine) (y s) :
    smUpdate y (withTrace tr s) = traceE tr (smUpdate y s) := by
  simp only [smUpdate, traceE_bind, traceE_ok]; rfl

theorem pidInit_withTrace (tr : List TraceLine) (a b c s) :
    pidInit a b c (withTrace tr s) = traceE tr (pidInit a b c s) := by
  simp only [pidInit, traceE_bind, traceE_ite, traceE_ok]; rfl

theorem pidUpdate_withTrace (tr : List TraceLine) (y s) :
    pidUpdate y (withTrace tr s) = traceE tr (pidUpdate y s) := by
  simp only [pidUpdate, traceE_bind, traceE_ok]; rfl

theorem pidSetpid_withTrace (tr : List TraceLine) (a b c s) :
    pidSetpid a b c (withTrace tr s) = traceE tr (pidSetpid a b c s) := by
  simp only [pidSetpid, traceE_bind, traceE_ok]; rfl

theorem pidSetpoint_withTrace (tr : List TraceLine) (y s) :
    pidSetpoint y (withTrace tr s) = traceE tr (pidSetpoint y s) := by
  simp only [pidSetpoint, traceE_bind, traceE_ok]; rfl

theorem stepGains_withTrace (tr : List TraceLine) (f g h s) :
    stepGains f g h (withTrace tr s) = traceE tr (stepGains f g h s) := by
  simp only [stepGains, traceE_bind, pidSetpid_withTrace]; rfl

theorem performCommand_withTrace (tr : List TraceLine) (c s) :
    performCommand c (withTrace tr s) = traceE tr (performCommand c s) := by
  cases c <;> simp only [performCommand]
  any_goals exact stepGains_withTrace tr _ _ _ s
  · simp only [cmdDigit, traceE_ite, traceE_ok]; rfl
  · simp only [cmdCommit, traceE_ite, traceE_bind, traceE_ok, pidSetpoint_withTrace]
    have : (withTrace tr s).cmdBuf = s.cmdBuf := rfl
    have : (withTrace tr s).cfg = s.cfg := rfl
    simp only [*]
    split
    · rfl
    · congr 1; funext a; cases pidSetpoint a s <;> rfl
  · simp only [cmdStatus, traceE_bind, traceE_ok]; rfl

theorem phaseStep_withTrace (tr : List TraceLine) (p f s) (h : f (withTrace tr s) = traceE tr (f s)) :
    phaseStep p f (withTrace tr s) = traceO tr (phaseStep p f s) := by
  unfold phaseStep
  by_cases hp : s.ph = p
  · rw [if_pos hp, if_pos (show (withTrace tr s).ph = p from hp), traceO_finish, h]
  · rw [if_neg hp, if_neg (show ¬ (withTrace tr s).ph = p from hp)]; rfl

theorem emitStep_withTrace (tr : List TraceLine) (p f s) (h : f (withTrace tr s) = traceE tr (f s)) :
    emitStep p f (withTrace tr s) = traceO tr (emitStep p f s) := by
  unfold emitStep
  by_cases hp : s.ph = .s6 ∧ s.em = p
  · rw [if_pos hp, if_pos (show (withTrace tr s).ph = _ ∧ (withTrace tr s).em = p from hp), traceO_finish, h]
  · rw [if_neg hp, if_neg (show ¬ ((withTrace tr s).ph = _ ∧ (withTrace tr s).em = p) from hp)]; rfl

theorem takeInterrupt_withTrace (tr : List TraceLine) (k f s) (h : ∀ s, f (withTrace tr s) = withTrace tr (f s)) :
    takeInterrupt k f (withTrace tr s) = traceO tr (takeInterrupt k f s) := by
  unfold takeInterrupt
  have : handlerEnabled k (withTrace tr s) = handlerEnabled k s := rfl
  rw [this]; split
  · show Host.Outcome.next _ = .next _; rw [← h]; rfl
  · rfl

/-- `exec` neither reads nor writes the trace. -/
theorem exec_withTrace (tr : List TraceLine) (i : Instr) (s : State) :
    exec i (withTrace tr s) = traceO tr (exec i s) := by
  cases i <;> simp only [exec]
  case reset => rfl
  case qaRise => exact takeInterrupt_withTrace _ _ _ _ (fun s => by
    have : ∀ s, countRise (withTrace tr s) = withTrace tr (countRise s) := by
      intro s; unfold countRise
      show (if countAtLimit s.prevB s.pos && s.cfg.posOverflow == .fault then _ else _) = _
      split <;> rfl
    unfold qaRiseBody; rw [this]; rfl)
  case qbEdge => exact takeInterrupt_withTrace _ _ _ _ (fun s => rfl)
  case pwRise => exact takeInterrupt_withTrace _ _ _ _ (fun s => rfl)
  case pwFall => exact takeInterrupt_withTrace _ _ _ _ (fun s => rfl)
  case leTick => exact takeInterrupt_withTrace _ _ _ _ (fun s => rfl)
  case liIndex => exact takeInterrupt_withTrace _ _ _ _ (fun s => rfl)
  case smSeed => simp only [execSmSeed, traceO_finish, smSeed_withTrace]
  case smUpdate => simp only [execSmUpdate, traceO_finish, smUpdate_withTrace]
  case pidInit => simp only [execPidInit, traceO_finish, pidInit_withTrace]
  case pidUpdate => simp only [execPidUpdate, traceO_finish, pidUpdate_withTrace]
  case pidSetpid => simp only [execPidSetpid, traceO_finish, pidSetpid_withTrace]
  case pidSetpoint => simp only [execPidSetpoint, traceO_finish, pidSetpoint_withTrace]
  case s1Sample y =>
    apply phaseStep_withTrace; unfold s1Sample; rw [smUpdate_withTrace, traceE_bind]; cases smUpdate y s <;> rfl
  case s2Serial =>
    apply phaseStep_withTrace; unfold s2Serial rxGetc
    have : (withTrace tr s).cfg = s.cfg := rfl
    have : (withTrace tr s).rxFifo = s.rxFifo := rfl
    simp only [*]
    split
    · cases s.rxFifo with
      | nil => rfl
      | cons b r =>
        simp only [traceE_bind]
        show (performCommand (decodeCommand b) (withTrace tr { s with rxFifo := r }) >>=
          fun a => Except.ok (goto .s3 a)) = _
        rw [performCommand_withTrace]
        cases performCommand (decodeCommand b) {s with rxFifo := r} <;> rfl
    · rfl
  case s3Control =>
    apply phaseStep_withTrace; unfold s3Control
    simp only [traceE_bind, pidUpdate_withTrace]
    have : (withTrace tr s).smooth = s.smooth := rfl
    rw [this]
    congr 1; funext a; cases pidUpdate a s <;> rfl
  case s4Range rdy d =>
    apply phaseStep_withTrace; unfold s4Range
    have h1 : (withTrace tr s).cfg = s.cfg := rfl
    have h2 : latchDistance d (withTrace tr s) = withTrace tr (latchDistance d s) := by
      unfold latchDistance
      show (if portLine .rfRdy s = true then _ else _) = _
      split
      · rfl
      · cases d <;> rfl
    rw [h1, h2]
    cases s.cfg.rangeBackend <;> rfl
  case s5Orient => apply phaseStep_withTrace; rfl
  case s6Emit =>
    apply emitStep_withTrace; unfold s6Emit
    simp only [traceE_ite, traceE_bind]; rfl
  case emOdo => apply emitStep_withTrace; rfl
  case emSend => apply emitStep_withTrace; simp only [emSend, traceE_bind]; rfl
  case st1 => apply phaseStep_withTrace; rfl
  case st2 => apply phaseStep_withTrace; rfl
  case st3 =>
    apply phaseStep_withTrace; unfold st3
    have : (withTrace tr s).cfg = s.cfg := rfl
    rw [this, pidInit_withTrace]
    cases pidInit s.cfg.minOut s.cfg.maxOut s.cfg.ts s with
    | error => rfl
    | ok s1 =>
      simp only [traceE_ok, ok_bind, pidSetpid_withTrace]
      cases pidSetpid s.cfg.kp0 s.cfg.ki0 s.cfg.kd0 s1 with
      | error => rfl
      | ok s2 =>
        simp only [traceE_ok, ok_bind, pidSetpoint_withTrace]
        cases pidSetpoint s.cfg.setpoint0 s2 <;> rfl
  case st4 => apply phaseStep_withTrace; rfl
  case st5 r =>
    apply phaseStep_withTrace; unfold st5
    cases r
    · simp only [traceE_ok, Bool.false_eq_true, if_false]
      have : (withTrace tr s).cfg = s.cfg := rfl
      have : (withTrace tr s).readyFail = s.readyFail := rfl
      simp only [*]
      split <;> rfl
    · rfl
  case st6 => apply phaseStep_withTrace; rfl
  case st7 => apply phaseStep_withTrace; unfold st7; simp only [traceE_bind]; rfl
  case st8 y => apply phaseStep_withTrace; unfold st8; rw [smSeed_withTrace]; cases smSeed y s <;> rfl
  case st9 => apply phaseStep_withTrace; rfl
  case st10 => apply phaseStep_withTrace; rfl
  case envEdge l =>
    unfold execEnvEdge traceO; simp only; congr 1
    have hr : ∀ k s, request k (withTrace tr s) = withTrace tr (request k s) := by
      intro k s; unfold request
      show (if getSource s.en k = true then _ else _) = _
      split <;> rfl
    have hf : ∀ (ks : List Source) s, ks.foldl (fun t k => request k t) (withTrace tr s) =
        withTrace tr (ks.foldl (fun t k => request k t) s) := by
      intro ks; induction ks with
      | nil => intro s; rfl
      | cons k ks ih => intro s; simp only [List.foldl_cons, hr, ih]
    exact hf (edgeSources l (getLevel (toggleLevel s.lvl l) l)) {s with lvl := toggleLevel s.lvl l}
  case envRx => rfl
  case envMs => unfold execEnvMs clockStep; show (if s.clkRun then _ else _) = _; split <;> rfl
  case envUs => unfold execEnvUs clockStep; show (if s.clkRun then _ else _) = _; split <;> rfl
  case cmdKpUp => exact (congrArg finish (performCommand_withTrace tr .kpUp s)).trans (traceO_finish tr _).symm
  case cmdKpDn => exact (congrArg finish (performCommand_withTrace tr .kpDn s)).trans (traceO_finish tr _).symm
  case cmdKiUp => exact (congrArg finish (performCommand_withTrace tr .kiUp s)).trans (traceO_finish tr _).symm
  case cmdKiDn => exact (congrArg finish (performCommand_withTrace tr .kiDn s)).trans (traceO_finish tr _).symm
  case cmdKdUp => exact (congrArg finish (performCommand_withTrace tr .kdUp s)).trans (traceO_finish tr _).symm
  case cmdKdDn => exact (congrArg finish (performCommand_withTrace tr .kdDn s)).trans (traceO_finish tr _).symm
  case cmdDigit d => exact (congrArg finish (performCommand_withTrace tr (.digit d) s)).trans (traceO_finish tr _).symm
  case cmdCommit => exact (congrArg finish (performCommand_withTrace tr .commit s)).trans (traceO_finish tr _).symm
  case cmdStatus => exact (congrArg finish (performCommand_withTrace tr .status s)).trans (traceO_finish tr _).symm

/-- One step of the host's run. -/
theorem core_run_succ (n : Nat) (s : State) :
    Host.Core.run core (n + 1) s =
      match step s with
      | .next t => Host.Core.run core n t
      | .fault r => .fault r
      | .refused r => .refused r := by
  cases h : step s <;> (have h2 : core.step s = _ := h; simp only [Host.Core.run, h2])

end Sys2Proof.Machine
end

