-- ==== Sys2Proof/Tests/Slice0.lean ====
section
/-! SUPPORT. Tests: ill-formed operands, decoding of written-out words, vectors of spec/95_test_vectors.md (each test
names its vector or its rule), and for each obligation with hypotheses a state that meets them. -/

namespace Sys2Proof.Tests

open Sys2Proof Sys2Proof.Machine

-- One theorem at a time: checked side by side, this many kernel evaluations need more threads than the memory limit gives.
set_option Elab.async false

/-! ### Helpers -/

/-- The parameters of 00:R6 with SETPOINT0 = 1/2. -/
def cfg : Params := { Params.default with setpoint0 := 1 / 2 }

/-- A state of the loop with every field written, every source enabled and pending, in phase `p`. -/
def busy (p : Phase) : State :=
  { State.reset with
    smooth := some (1 / 2), kp := some (1 / 5), ki := some 50, kd := some 0,
    minOut := some 0, maxOut := some 1, ts := some (1 / 40), setpoint := some (1 / 2),
    clkRun := true, ph := p, cal := some ⟨3, 3, 3, 3⟩, quat := some ⟨16384, 0, -12, 7⟩,
    emRec := ⟨some 125, some 620, some (-12)⟩,
    steerDuty := some 0, throttleDuty := some 0, steerPeriodUs := some 250, throttlePeriodUs := some 250,
    en := ⟨true, true, true, true, true, true⟩, pend := ⟨true, true, true, true, true, true⟩, cfg := cfg }

/-- A field of the next state. -/
def after {α : Type} (o : Out) (f : State → α) : Option α :=
  match o with
  | .next t => some (f t)
  | .fault _ => none
  | .refused _ => none

/-- The refusal, if the outcome is one. -/
def refusal (o : Out) : Option Refusal :=
  match o with
  | .next _ => none
  | .fault _ => none
  | .refused r => some r

/-- The outcome is a next state. -/
def completes (o : Out) : Bool := (after o (fun _ => ())).isSome

/-! ### Well-formedness: each check refuses an ill-formed operand (20:R63) -/

theorem test_adc_above_one : (Instr.s1Sample 2).wellFormed = false := by decide +kernel
theorem test_adc_below_zero : (Instr.st8 (-1)).wellFormed = false := by decide +kernel
theorem test_adc_bounds : (Instr.s1Sample 0).wellFormed = true ∧ (Instr.st8 1).wellFormed = true := by
  decide +kernel
/-- A sample outside the contract is decoded and runs, unclamped (20:R63). -/
theorem test_adc_outside_runs :
    decode (.word [0x30#8, 4#8, 0#8]) = .ok (.s1Sample 2) ∧ decode (.word [0x47#8, 1#8, 0#8]) = .ok (.st8 (-1)) ∧
    after (exec (.st8 (-1)) (busy .st8)) (fun t => t.smooth) = some (some (-1)) := by decide +kernel

/-! ### Decoding: every constructor from a word written out (30:R84, R88, R89; operand bytes log 10) -/

theorem test_decode_reset :
    decode (.word [0x00#8, 2#8, 1#8, 2#8, 1#8, 0#8, 0#8, 2#8])
      = .ok (.reset (some true) ⟨some false, some true, some false, none, none, some true⟩) ∧
    decode (.word [0x00#8]) = .ok (.reset none ⟨none, none, none, none, none, none⟩) := by decide +kernel

theorem test_decode_handlers :
    decode (.word [0x01#8]) = .ok .qaRise ∧ decode (.word [0x02#8]) = .ok .qbEdge ∧
    decode (.word [0x03#8]) = .ok .pwRise ∧ decode (.word [0x04#8]) = .ok .pwFall ∧
    decode (.word [0x05#8]) = .ok .leTick ∧ decode (.word [0x06#8]) = .ok .liIndex := by decide +kernel

theorem test_decode_smoother :
    decode (.word [0x10#8, 8#8, 4#8]) = .ok (.smSeed (4 / 5)) ∧
    decode (.word [0x11#8, 2#8, 4#8]) = .ok (.smUpdate (1 / 5)) := by decide +kernel

theorem test_decode_pid :
    decode (.word [0x20#8, 0#8, 0#8, 2#8, 0#8, 2#8, 39#8]) = .ok (.pidInit 0 1 (1 / 40)) ∧
    decode (.word [0x21#8, 1#8, 1#8]) = .ok (.pidUpdate (-1 / 2)) ∧
    decode (.word [0x22#8, 42#8, 99#8, 100#8, 0#8, 0#8, 0#8]) = .ok (.pidSetpid (21 / 100) 50 0) ∧
    decode (.word [0x23#8, 6#8, 1#8]) = .ok (.pidSetpoint (3 / 2)) := by decide +kernel

theorem test_decode_loop :
    decode (.word [0x30#8, 2#8, 4#8]) = .ok (.s1Sample (1 / 5)) ∧ decode (.word [0x31#8]) = .ok .s2Serial ∧
    decode (.word [0x32#8]) = .ok .s3Control ∧
    decode (.word [0x33#8, 2#8, 1#8, 95#8, 0#8, 0#8, 1#8]) = .ok (.s4Range (some true) (some 16777311#32)) ∧
    decode (.word [0x33#8]) = .ok (.s4Range none none) ∧
    decode (.word [0x34#8, 3#8, 2#8, 1#8, 0#8, 0#8, 0x80#8, 0xFF#8, 0x7F#8, 0#8, 0#8, 0xFF#8, 0xFF#8])
      = .ok (.s5Orient ⟨⟨3, 2, 1, 0⟩, ⟨0x8000#16, 32767#16, 0#16, 0xFFFF#16⟩⟩) ∧
    decode (.word [0x35#8]) = .ok .s6Emit ∧ decode (.word [0x36#8]) = .ok .emOdo ∧
    decode (.word [0x37#8]) = .ok .emSend := by decide +kernel

theorem test_decode_startup :
    decode (.word [0x40#8]) = .ok .st1 ∧ decode (.word [0x41#8]) = .ok .st2 ∧ decode (.word [0x42#8]) = .ok .st3 ∧
    decode (.word [0x43#8]) = .ok .st4 ∧ decode (.word [0x44#8, 1#8]) = .ok (.st5 true) ∧
    decode (.word [0x45#8]) = .ok .st6 ∧ decode (.word [0x46#8]) = .ok .st7 ∧
    decode (.word [0x47#8, 8#8, 4#8]) = .ok (.st8 (4 / 5)) ∧ decode (.word [0x48#8, 0#8]) = .ok (.st9 false) ∧
    decode (.word [0x49#8]) = .ok .st10 := by decide +kernel

theorem test_decode_environment :
    decode (.word [0x50#8, 5#8]) = .ok (.envEdge .rfRdy) ∧ decode (.word [0x51#8, 0x70#8]) = .ok (.envRx 0x70#8) ∧
    decode (.word [0x52#8, 0xAC#8, 2#8]) = .ok (.envMs 300) ∧ decode (.word [0x53#8, 7#8]) = .ok (.envUs 7) := by
  decide +kernel

theorem test_decode_gain_bytes :
    decode (.command 0x70#8) = .ok .cmdKpUp ∧ decode (.command 0x6C#8) = .ok .cmdKpDn ∧
    decode (.command 0x69#8) = .ok .cmdKiUp ∧ decode (.command 0x6B#8) = .ok .cmdKiDn ∧
    decode (.command 0x64#8) = .ok .cmdKdUp ∧ decode (.command 0x63#8) = .ok .cmdKdDn := by decide +kernel

/-- The decode table of 95, V-K. -/
theorem test_decode_other_bytes :
    decode (.command 0x30#8) = .ok (.cmdDigit 0) ∧ decode (.command 0x39#8) = .ok (.cmdDigit 9) ∧
    decode (.command 0x0A#8) = .ok .cmdCommit ∧ decode (.command 0x0D#8) = .ok .cmdCommit ∧
    decode (.command 0x2F#8) = .ok .cmdStatus ∧ decode (.command 0x3A#8) = .ok .cmdStatus ∧
    decode (.command 0x50#8) = .ok .cmdStatus ∧ decode (.command 0x00#8) = .ok .cmdStatus ∧
    decode (.command 0xFF#8) = .ok .cmdStatus ∧ decode (.command 0x0B#8) = .ok .cmdStatus := by decide +kernel

/-- 30:R86: an identifier outside R89 is refused, and bytes after the operands mean nothing. -/
theorem test_decode_refuses :
    decode (.word [0x07#8]) = .error (.unknownId 0x07#8) ∧ decode (.word [0x54#8]) = .error (.unknownId 0x54#8) ∧
    decode (.word []) = .error .noId ∧ decode (.word [0x31#8, 1#8]) = .ok .s2Serial := by decide +kernel

/-- A missing operand, and a byte that is no value of its type, are free values (log 10). -/
theorem test_decode_open :
    decode (.word [0x44#8]) = .ok (.st5 (Config.openBit [0x44#8] 0)) ∧
    decode (.word [0x44#8, 2#8]) = .ok (.st5 (Config.openBit [0x44#8, 2#8] 0)) ∧
    decode (.word [0x50#8, 6#8]) = .ok (.envEdge (Config.openLine [0x50#8, 6#8] 0)) := ⟨rfl, rfl, rfl⟩

/-- Words of opcode_table.json: 0x70 is a command byte, 0x31 a trace identifier (log 11). -/
theorem test_table_words :
    decodeTableWord 8 0x70 = some .cmdKpUp ∧ decodeTableWord 8 0x31 = some .s2Serial ∧
    decodeTableWord 8 0x39 = some (.cmdDigit 9) ∧ decodeTableWord 8 0x0D = some .cmdCommit := by decide +kernel

/-! ### Vectors (spec/95_test_vectors.md), one step each -/

/-- V-Q2. -/
theorem test_qa_down :
    after (exec .qaRise { busy .s1 with prevB := true, led := true }) (fun t => (t.pos, t.led, t.pend.qaRise))
      = some (-1, false, false) := by decide +kernel
/-- V-Q5, POS_OVERFLOW = wrap and fault. -/
theorem test_qa_overflow :
    after (exec .qaRise { busy .s1 with pos := 2147483647 }) (fun t => (t.pos.toInt, t.faulted))
      = some (-2147483648, false) ∧
    after (exec .qaRise { busy .s1 with pos := 2147483647, cfg := { cfg with posOverflow := .fault } })
      (fun t => (t.pos.toInt, t.faulted, t.led)) = some (2147483647, true, true) := by decide +kernel
/-- V-Q3. -/
theorem test_qb_toggles :
    after (exec .qbEdge (busy .s1)) (fun t => (t.prevB, t.pos, t.led)) = some (true, 0, false) := by decide +kernel
/-- V-P1. -/
theorem test_pw_rise :
    after (exec .pwRise { busy .s1 with usClock := 1200 }) (fun t => (t.riseUs, t.usClock, t.widthUs))
      = some (1200, 1200, 0) := by decide +kernel
/-- V-P2. -/
theorem test_pw_fall :
    after (exec .pwFall { busy .s1 with riseUs := 1200, usClock := 3700 }) (fun t => (t.widthUs, t.usClock, t.riseUs))
      = some (2500, 0, 1200) := by decide +kernel
/-- V-P5. -/
theorem test_pw_fall_stale :
    after (exec .pwFall { busy .s1 with riseUs := 1200, usClock := 300 }) (fun t => t.widthUs.toNat)
      = some 4294966396 := by decide +kernel
/-- V-R4. -/
theorem test_le_wraps :
    after (exec .leTick { busy .s1 with tickCount := 4294967295 }) (fun t => t.tickCount) = some 0 := by decide +kernel
/-- V-R2. -/
theorem test_li_copies :
    after (exec .liIndex { busy .s1 with tickCount := 1346, lastFullRevCount := 1340 })
      (fun t => (t.lastFullRevCount, t.tickCount)) = some (1346, 0) := by decide +kernel
/-- V-R6. -/
theorem test_bearing :
    [0, 1, 3, 4, 673, 675, 1345, 1346, 4294967295].map (fun n => bearing 1346 (BitVec.ofNat 32 n))
      = [0, 0, 0, 1, 180, 180, 359, 359, 359] := by decide +kernel
/-- V-S1. -/
theorem test_sm_seed :
    after (exec (.smSeed (4 / 5)) State.reset) (fun t => t.smooth) = some (some (4 / 5)) := by decide +kernel
/-- V-S4. -/
theorem test_sm_update :
    after (exec (.smUpdate (1 / 5)) { busy .s1 with smooth := some (31 / 50) }) (fun t => t.smooth)
      = some (some (247 / 500)) := by decide +kernel
/-- V-S10. -/
theorem test_sm_unwritten :
    refusal (exec (.smUpdate (1 / 2)) State.reset) = some (.unwritten .s) := by decide +kernel
/-- V-C13. -/
theorem test_pid_init :
    after (exec (.pidInit 0 1 (1 / 40)) State.reset) (fun t => (t.minOut, t.maxOut, t.ts, t.integ))
      = some (some 0, some 1, some (1 / 40), 0) := by decide +kernel
/-- V-C14, V-C15. -/
theorem test_pid_init_refused :
    refusal (exec (.pidInit 1 0 (1 / 40)) (busy .s1)) = some .badPidConfig ∧
    refusal (exec (.pidInit 0 1 0) (busy .s1)) = some .badPidConfig := by decide +kernel
/-- V-C8: derivative, and the roll-back at the upper bound. -/
theorem test_pid_update_windup :
    after (exec (.pidUpdate (1 / 10)) { busy .s1 with kd := some (1 / 1000), integ := 1 / 80, ePrev := 1 / 2 })
      (fun t => (t.output, t.integ, t.ePrev)) = some (1, 1 / 80, 2 / 5) := by decide +kernel
/-- V-C11: above the bound with e < 0 the integrator moves. -/
theorem test_pid_update_no_windup :
    after (exec (.pidUpdate (3 / 5)) { busy .s1 with integ := 1 }) (fun t => (t.output, t.integ, t.ePrev))
      = some (1, 399 / 400, -1 / 10) := by decide +kernel
/-- V-C16. -/
theorem test_pid_setpid :
    after (exec (.pidSetpid (21 / 100) 50 0) { busy .s1 with integ := 1 / 80, ePrev := 1 / 2 })
      (fun t => (t.kp, t.ki, t.kd, t.integ, t.ePrev)) = some (some (21 / 100), some 50, some 0, 1 / 80, 1 / 2) := by
  decide +kernel
/-- V-C18, V-C19. -/
theorem test_pid_setpoint :
    after (exec (.pidSetpoint (3 / 2)) (busy .s1)) (fun t => t.setpoint) = some (some 1) ∧
    after (exec (.pidSetpoint (-1 / 5)) (busy .s1)) (fun t => t.setpoint) = some (some 0) := by decide +kernel
/-- V-C20. -/
theorem test_pid_gains_unwritten :
    refusal (exec (.pidUpdate 0) { busy .s1 with kp := none, ki := none, kd := none }) = some (.unwritten .kp) := by
  decide +kernel
/-- 46:R181 to R186; the decrements of V-K2, V-K4. -/
theorem test_gain_commands :
    after (exec .cmdKpUp (busy .s1)) (fun t => t.kp) = some (some (21 / 100)) ∧
    after (exec .cmdKpDn { busy .s1 with kp := some (1 / 100) }) (fun t => t.kp) = some (some 0) ∧
    after (exec .cmdKiUp (busy .s1)) (fun t => t.ki) = some (some 51) ∧
    after (exec .cmdKiDn { busy .s1 with ki := some 0 }) (fun t => t.ki) = some (some (-1)) ∧
    after (exec .cmdKdUp (busy .s1)) (fun t => t.kd) = some (some (1 / 1000)) ∧
    after (exec .cmdKdDn (busy .s1)) (fun t => t.kd) = some (some (-1 / 1000)) := by decide +kernel
/-- V-K12, V-K13. -/
theorem test_digit_capacity :
    after (exec (.cmdDigit 4) { busy .s1 with cmdBuf := List.replicate 31 0 }) (fun t => (t.cmdBuf.length, t.txLog))
      = some (31, []) ∧
    after (exec (.cmdDigit 4) { busy .s1 with cmdBuf := List.replicate 30 0 })
      (fun t => (t.cmdBuf.length, t.cmdBuf.getLast?, t.txLog)) = some (31, some 4, [.echo 4]) := by decide +kernel
/-- V-K8, V-K9. -/
theorem test_commit :
    after (exec .cmdCommit { busy .s1 with cmdBuf := [1, 5, 0, 0] }) (fun t => (t.setpoint, t.cmdBuf))
      = some (some 1, []) ∧
    after (exec .cmdCommit { busy .s1 with cmdBuf := [0, 0, 7] }) (fun t => t.setpoint) = some (some (7 / 1000)) := by
  decide +kernel
/-- V-K11, EMPTY_COMMIT = zero and ignore. -/
theorem test_commit_empty :
    after (exec .cmdCommit (busy .s1)) (fun t => t.setpoint) = some (some 0) ∧
    after (exec .cmdCommit { busy .s1 with cfg := { cfg with emptyCommit := .ignore } }) (fun t => t.setpoint)
      = some (some (1 / 2)) := by decide +kernel
/-- V-K16. -/
theorem test_status :
    after (exec .cmdStatus { busy .s1 with setpoint := some 0, cmdBuf := [5] }) (fun t => (t.txLog, t.cmdBuf))
      = some ([.status ⟨1 / 5, 50, 0, 0, 0, 0, 0⟩], [5]) := by decide +kernel
/-- V-L1. -/
theorem test_s1 :
    after (exec (.s1Sample (1 / 5)) { busy .s1 with smooth := some (4 / 5) }) (fun t => (t.smooth, t.ph))
      = some (some (31 / 50), .s2) := by decide +kernel
/-- V-L16. -/
theorem test_s1_not_enabled :
    refusal (exec (.s1Sample (1 / 2)) (busy .s3)) = some .notEnabled := by decide +kernel
/-- V-L9. -/
theorem test_s2_one_byte :
    after (exec .s2Serial { busy .s2 with rxFifo := [0x70, 0x70] }) (fun t => (t.kp, t.rxFifo, t.ph))
      = some (some (21 / 100), [0x70], .s3) := by decide +kernel
/-- V-L10. -/
theorem test_s2_no_tuner :
    after (exec .s2Serial { busy .s2 with rxFifo := [0x70], cfg := { cfg with pidTuner := false } })
      (fun t => (t.kp, t.rxFifo, t.ph)) = some (some (1 / 5), [0x70], .s3) := by decide +kernel
/-- V-L11. -/
theorem test_s3 :
    after (exec .s3Control { busy .s3 with smooth := some 0 })
      (fun t => (t.output, t.steerDuty, t.integ, t.ePrev, t.ph))
      = some (29 / 40, some (29 / 40), 1 / 80, 1 / 2, .s4) := by decide +kernel
/-- V-L12. -/
theorem test_s4_pwm :
    after (exec (.s4Range none none) { busy .s4 with widthUs := 2500 }) (fun t => (t.rangeLatch, t.ph))
      = some (2500, .s5) := by decide +kernel
/-- V-L13, V-L14. -/
theorem test_s4_i2c :
    after (exec (.s4Range (some true) (some 95))
        { busy .s4 with rangeLatch := 80, cfg := { cfg with rangeBackend := .i2c },
                        lvl := ⟨false, false, false, false, false, true⟩ })
      (fun t => t.rangeLatch) = some 80 ∧
    after (exec (.s4Range (some false) (some 95))
        { busy .s4 with rangeLatch := 80, cfg := { cfg with rangeBackend := .i2c } })
      (fun t => t.rangeLatch) = some 95 := by decide +kernel
/-- 30:R87: the bare S4_RANGE of CYCLE, with each backend and each level of RF_RDY. -/
theorem test_s4_bare_completes :
    completes (exec (.s4Range none none) (busy .s4)) = true ∧
    completes (exec (.s4Range none none) { busy .s4 with cfg := { cfg with rangeBackend := .i2c } }) = true ∧
    after (exec (.s4Range none none)
        { busy .s4 with rangeLatch := 80, cfg := { cfg with rangeBackend := .i2c },
                        lvl := ⟨false, false, false, false, false, true⟩ })
      (fun t => t.rangeLatch) = some 80 := by decide +kernel
/-- V-L15. -/
theorem test_s5 :
    after (exec (.s5Orient ⟨⟨3, 2, 1, 0⟩, ⟨-32768, 32767, 0, -1⟩⟩) (busy .s5))
      (fun t => (t.cal, t.quat.map (fun q => (q.w.toInt, q.z.toInt)), t.ph))
      = some (some ⟨3, 2, 1, 0⟩, some (-32768, -1), .s6) := by decide +kernel
/-- V-L6. -/
theorem test_s6_waits :
    after (exec .s6Emit { busy .s6 with prevEmitMs := 4294967290, msClock := 14 }) (fun t => (t.ph, t.em))
      = some (.s1, .idle) := by decide +kernel
/-- V-L3. -/
theorem test_s6_emits :
    after (exec .s6Emit { busy .s6 with prevEmitMs := 100, msClock := 125, smooth := some (31 / 50) })
      (fun t => (t.prevEmitMs, t.emRec.t, t.emRec.sa, t.em, t.ph))
      = some (125, some 125, some 620, .e1, .s6) := by decide +kernel
/-- 47:R202. -/
theorem test_em_odo :
    after (exec .emOdo { busy .s6 with em := .e1, pos := 5 }) (fun t => (t.emRec.odo, t.em)) = some (some 5, .e2) := by
  decide +kernel
/-- V-E1. -/
theorem test_em_send :
    after (exec .emSend { busy .s6 with em := .e2, rangeLatch := 2500, tickCount := 673 })
      (fun t => t.txLog.map recordText)
      = some [some ("t:125,AMGS:3333,qw:16384,qx:0,qy:-12,qz:7,sa:620,odo:-12,r:2500,b:180".toList
          ++ ['\r', '\n'])] := by decide +kernel
/-- V-E4. -/
theorem test_em_send_i2c :
    after (exec .emSend { busy .s6 with em := .e2, rangeLatch := 95, tickCount := 673,
                                        cfg := { cfg with rangeBackend := .i2c } })
      (fun t => t.txLog.map recordText)
      = some [some ("t:125,AMGS:3333,qw:16384,qx:0,qy:-12,qz:7,sa:620,odo:-12,r:95,b:0".toList
          ++ ['\r', '\n'])] := by decide +kernel
/-- V-B1. -/
theorem test_reset :
    after (exec (.reset (some false) ⟨none, some true, none, none, none, none⟩) (busy .s3))
      (fun t => (t.ph, t.led, t.lvl.encB, t.smooth, t.clkRun, t.pend.qaRise))
      = some (.st1, false, true, none, false, false) := by decide +kernel
/-- 70:R252, R255; V-B2. -/
theorem test_st1_st2_st4 :
    after (exec .st1 (busy .st1)) (fun t => t.ph) = some .st2 ∧
    after (exec .st2 { busy .st2 with clkRun := false }) (fun t => (t.clkRun, t.ph)) = some (true, .st3) ∧
    after (exec .st4 (busy .st4)) (fun t => t.ph) = some .st5 := by decide +kernel
/-- V-B3. -/
theorem test_st3 :
    after (exec .st3 { State.reset with ph := .st3, cfg := { cfg with setpoint0 := 3 / 4 } })
      (fun t => ([t.minOut, t.maxOut, t.ts, t.kp, t.ki, t.kd, t.setpoint], t.ph))
      = some ([some 0, some 1, some (1 / 40), some (1 / 5), some 50, some 0, some (3 / 4)], .st4) := by decide +kernel
/-- V-B5. -/
theorem test_st5_diag :
    after (exec (.st5 false) { busy .st5 with readyFail := 99, led := true })
      (fun t => (t.readyFail, t.led, t.ph, t.txLog)) = some (100, false, .st5, [.diag]) := by decide +kernel
/-- V-B6, V-B7. -/
theorem test_st5_past_diag :
    after (exec (.st5 false) { busy .st5 with readyFail := 100 }) (fun t => (t.readyFail, t.txLog)) = some (101, []) ∧
    after (exec (.st5 true) { busy .st5 with readyFail := 101 }) (fun t => (t.readyFail, t.ph)) = some (101, .st6) := by
  decide +kernel
/-- V-B8. -/
theorem test_st6_st7 :
    after (exec .st6 { busy .st6 with steerPeriodUs := none, throttlePeriodUs := none })
      (fun t => (t.steerPeriodUs, t.throttlePeriodUs, t.ph)) = some (some 250, some 250, .st7) ∧
    after (exec .st7 { busy .st7 with throttleDuty := none }) (fun t => (t.throttleDuty, t.ph))
      = some (some 0, .st8) := by decide +kernel
/-- V-B9. -/
theorem test_st8 :
    after (exec (.st8 (4 / 5)) { busy .st8 with smooth := none }) (fun t => (t.smooth, t.ph))
      = some (some (4 / 5), .st9) := by decide +kernel
/-- V-B10; with another operand, and with the word of ST9 alone, the line's level is cached all the same (20:R62, R260). -/
theorem test_st9 :
    after (exec (.st9 true) { busy .st9 with lvl := ⟨false, true, false, false, false, false⟩ })
      (fun t => (t.prevB, t.ph)) = some (true, .st10) ∧
    after (exec (.st9 true) (busy .st9)) (fun t => (t.prevB, t.ph)) = some (false, .st10) ∧
    after (step ({ busy .st9 with lvl := ⟨false, true, false, false, false, false⟩ }.withFetchWord 8 0x48))
      (fun t => t.prevB) = some true := by decide +kernel
/-- V-B12. -/
theorem test_st10_i2c :
    after (exec .st10 { State.reset with ph := .st10, cfg := { cfg with rangeBackend := .i2c } })
      (fun t => (t.en, t.ph)) = some (⟨true, true, false, false, true, true⟩, .s1) := by decide +kernel
/-- V-B13. -/
theorem test_st10_no_lidar :
    after (exec .st10 { State.reset with ph := .st10, cfg := { cfg with lidarAttached := false } }) (fun t => t.en)
      = some ⟨true, true, false, false, false, false⟩ := by decide +kernel
/-- V-I2: a falling edge of A requests nothing. -/
theorem test_edge_a_falls :
    after (exec (.envEdge .encA) { busy .s1 with lvl := ⟨true, false, false, false, false, false⟩,
                                                 pend := ⟨false, false, false, false, false, false⟩ })
      (fun t => (t.lvl.encA, t.pend.qaRise)) = some (false, false) := by decide +kernel
/-- V-I6: not latched while the source is disabled. -/
theorem test_edge_disabled :
    after (exec (.envEdge .encA) State.reset) (fun t => (t.lvl.encA, t.pend.qaRise)) = some (true, false) := by
  decide +kernel
/-- V-I11. -/
theorem test_rx :
    after (exec (.envRx 0x30) { busy .s1 with rxFifo := [0x35] }) (fun t => t.rxFifo) = some [0x35, 0x30] := by
  decide +kernel
/-- V-I10, V-I9. -/
theorem test_ms :
    after (exec (.envMs 2) { busy .s1 with msClock := 4294967295 }) (fun t => t.msClock) = some 1 ∧
    refusal (exec (.envMs 5) State.reset) = some .notEnabled := by decide +kernel
/-- V-P8. -/
theorem test_us :
    after (exec (.envUs 1) { busy .s1 with usClock := 4294967295 }) (fun t => t.usClock) = some 0 := by decide +kernel
/-- V-I7. -/
theorem test_handler_not_pending :
    refusal (exec .qaRise State.reset) = some .notEnabled := by decide +kernel

/-! ### The first instruction after reset (log 6, 7) -/

theorem test_first_step :
    after (step (State.reset.withFetchWord 8 0x31)) (fun t => (t.ph, t.trace)) = some (.s3, []) ∧
    after (step (State.reset.withFetchWord 8 0x01)) (fun t => t.pos) = some 1 ∧
    after (step (State.reset.withFetchWord 8 0x40)) (fun t => t.ph) = some .st2 := by decide +kernel

/-- A table word leaves the optional operands out. -/
theorem test_first_bare :
    after (step (State.reset.withFetchWord 8 0x00)) (fun t => (t.ph, t.trace)) = some (.st1, []) ∧
    after (step (State.reset.withFetchWord 8 0x33)) (fun t => (t.ph, t.trace)) = some (.s5, []) := by decide +kernel

/-- The operands of a table word are zero bytes: `ENV_EDGE ENC_A`. -/
theorem test_first_edge :
    after (step (State.reset.withFetchWord 8 0x50)) (fun t => t.lvl.encA) = some true := by decide +kernel

/-- 47:R205. -/
theorem test_decimal_text :
    natText 0 = ['0'] ∧ natText 4294967295 = "4294967295".toList ∧ natText 100 = "100".toList ∧
    intText (-2147483648) = "-2147483648".toList := by decide +kernel

/-- 93:U1: in binary32 the literal 0.1 is 13421773 / 2^27. -/
theorem test_binary32 :
    (literal .binary32 (1 / 10)).toOption = some (13421773 / 134217728) ∧
    (literal .binary64 (1 / 2)).toOption = some (1 / 2) := by decide +kernel

/-! ### Witnesses: for each obligation with hypotheses, a state and operands that meet them, clause by clause -/

/-- `busy` in its loop phases has the invariant. -/
theorem busy_inv : StateInv (busy .s3) where
  pendEnabled := by intro k _; cases k <;> rfl
  enabledInLoop := by intro k _; decide
  emissionInS6 := by intro h; exact absurd rfl h
  bufferBounded := by decide
  boundsOrdered := by intro lo hi h1 h2; cases h1; cases h2; decide +kernel
  periodPositive := by intro t h; cases h; decide +kernel
  pidWritten := by intro _; decide
  seeded := by intro _; rfl
  sampled := by intro _; decide
  emissionBegun := by intro _; decide
  odometerRead := by intro _; rfl
  timersRun := by intro _; rfl
  timersStand := by intro h; cases h
  periodsSet := by intro _; exact ⟨rfl, rfl⟩
  throttleDriven := by intro _; rfl

/-- The identifiers beside the ranges of R89 (those in them: test_decode_reset to test_decode_environment). -/
theorem wit_WrittenWordsDecode :
    ([0x07, 0x0F, 0x12, 0x1F, 0x24, 0x2F, 0x38, 0x3F, 0x4A, 0x4F, 0x54, 0xFF] : List Byte).all
      (fun id => decide (decode (.word [id, 1#8]) = .error (.unknownId id))) = true := by decide +kernel

theorem wit_StepRunsTraceLine :
    paramsOk (busy .s2).cfg = true ∧ ({ busy .s2 with trace := [.word [0x31#8]] }).trace = .word [0x31#8] :: [] ∧
    decode (.word [0x31#8]) = .ok .s2Serial := by decide +kernel

theorem wit_FreeStepIsOffered : paramsOk (busy .s2).cfg = true ∧ (busy .s2).trace = [] := by decide +kernel

theorem wit_TraceRunsAsWritten : paramsOk (busy .s1).cfg = true := by decide +kernel

/-- Each condition of R7 alone, at the boundary. -/
theorem wit_BadConfigRefused :
    paramsOk cfg = true ∧ paramsOk { cfg with alpha := 1, tpr := 1, cmdBufMax := 2, maxOut := 0 } = true ∧
    paramsOk { cfg with ts := 0 } = false ∧ paramsOk { cfg with tpr := 0 } = false ∧
    paramsOk { cfg with alpha := 0 } = false ∧ paramsOk { cfg with alpha := 11 / 10 } = false ∧
    paramsOk { cfg with maxOut := -1 } = false ∧ paramsOk { cfg with cmdBufMax := 1 } = false ∧
    paramsOk { cfg with wordBits := 31 } = false := by decide +kernel

theorem wit_RefusedExactlyWhenNotEnabled :
    enabled .s3Control (busy .s3) = true ∧ enabled .s3Control (busy .s2) = false ∧
    refusal (exec .s3Control (busy .s2)) = some .notEnabled := by decide +kernel

theorem wit_HandlerStepsExactlyWhenPending :
    ([.qaRise, .qbEdge, .pwRise, .pwFall, .leTick, .liIndex] : List Source).all
      (fun k => completes (exec (handlerOf k) (busy .s1))) = true := by decide +kernel

/-- A count, a wrap at either limit, and a fault at either limit. -/
theorem wit_QaRiseCounts :
    (busy .s1).pend.qaRise = true ∧ (busy .s1).en.qaRise = true ∧
    ({ busy .s1 with pos := posMax }).pos.toInt = 2 ^ 31 - 1 ∧
    ({ busy .s1 with pos := posMin, prevB := true }).pos.toInt = -2 ^ 31 ∧
    ({ cfg with posOverflow := .fault }).posOverflow = .fault := by decide +kernel

theorem wit_PlainHandlers :
    (busy .s1).pend = ⟨true, true, true, true, true, true⟩ ∧ (busy .s1).en = ⟨true, true, true, true, true, true⟩ := by
  decide

theorem wit_PwFallMeasures : (busy .s1).pend.pwFall = true ∧ (busy .s1).en.pwFall = true := by decide

/-- No advance at all; the largest, with an edge of another line in between. -/
theorem wit_PulseWidthIsTotalAdvance :
    completes (run ([.pwRise] ++ [] ++ [.pwFall]) (busy .s1)) = true ∧
    (∀ i ∈ [Instr.envUs 4294967290, .envEdge .encA, .envUs 5],
      i ≠ .pwRise ∧ i ≠ .pwFall ∧ agentOf i ≠ some .rst) ∧
    ([Instr.envUs 4294967290, .envEdge .encA, .envUs 5].map usAdvance).sum < 2 ^ 32 ∧
    completes (run ([.pwRise] ++ [.envUs 4294967290, .envEdge .encA, .envUs 5] ++ [.pwFall]) (busy .s1)) = true := by
  decide +kernel

/-- A rise, a B edge and a second rise; and a run of rises alone. -/
theorem wit_PositionCountsRises :
    (busy .s1).pos = 0 ∧ [Instr.qaRise, .qbEdge, .envEdge .encA, .qaRise].count .qaRise < 2 ^ 31 ∧
    (∀ i ∈ [Instr.qaRise, .qbEdge, .envEdge .encA, .qaRise], agentOf i ≠ some .rst) ∧
    completes (run [.qaRise, .qbEdge, .envEdge .encA, .qaRise] { busy .s1 with pend := ⟨true, true, true, true, true, true⟩ })
      = true ∧
    (∀ i ∈ [Instr.qaRise, .envEdge .encA], i ≠ .qbEdge ∧ phaseOf i ≠ some .st9) ∧
    completes (run [.qaRise, .envEdge .encA] { busy .s1 with prevB := true }) = true := by decide +kernel

/-- The handler of a pending B edge, and a B edge with none pending. -/
theorem wit_NoOverrunKeepsDirection :
    11 ≤ phaseRank (busy .s1).ph ∧ (busy .s1).en.qbEdge = true ∧ agentOf .qbEdge ≠ some .rst ∧
    overruns .qbEdge { busy .s1 with prevB := true } = false ∧
    ({ busy .s1 with prevB := true }).prevB = ((busy .s1).lvl.encB ^^ (busy .s1).pend.qbEdge) ∧
    completes (exec .qbEdge { busy .s1 with prevB := true }) = true ∧
    overruns (.envEdge .encB) { busy .s1 with pend := ⟨false, false, true, true, true, true⟩ } = false ∧
    completes (exec (.envEdge .encB) { busy .s1 with pend := ⟨false, false, true, true, true, true⟩ }) = true := by
  decide +kernel

theorem wit_exact : (busy .s1).cfg.numeric = .exact := rfl

/-- The witness of SmSeedTakesSample, SmUpdateLaw and SmoothedClosedForm, `s` written and unwritten. -/
theorem wit_SmUpdateLaw :
    (busy .s1).cfg.numeric = .exact ∧ (busy .s1).smooth = some (1 / 2) ∧ ({ busy .s1 with smooth := none }).smooth = none := by
  decide +kernel

theorem wit_SmUpdateContracts :
    (busy .s1).cfg.numeric = .exact ∧ 0 < (busy .s1).cfg.alpha ∧ (busy .s1).cfg.alpha ≤ 1 ∧
    0 < ({ cfg with alpha := 1 }).alpha ∧ ({ cfg with alpha := 1 }).alpha ≤ 1 ∧ (busy .s1).smooth = some (1 / 2) := by
  decide +kernel

/-- Bounds that meet, bounds that cross, a period of zero. -/
theorem wit_PidInitWritesOrRefuses :
    State.reset.cfg.numeric = .exact ∧ ((1 : NumV) ≤ 1 ∧ (0 : NumV) < 1 / 40) ∧ ((0 : NumV) < 1 ∨ (1 : NumV) ≤ 0) ∧
    ((0 : NumV) ≤ 0) := by decide +kernel

/-- Each field alone. -/
theorem wit_PidPreconditions :
    isUnwritten .minOut State.reset = true ∧ isUnwritten .maxOut { busy .s1 with maxOut := none } = true ∧
    isUnwritten .ts { busy .s1 with ts := none } = true ∧ isUnwritten .kp { busy .s1 with kp := none } = true ∧
    isUnwritten .ki { busy .s1 with ki := none } = true ∧ isUnwritten .kd { busy .s1 with kd := none } = true ∧
    isUnwritten .setpoint { busy .s1 with setpoint := none } = true := by decide +kernel

/-- The witness of PidUpdateLaw, PidSettersWrite, and the completing clauses of GainCommandsStep and S3Controls. -/
theorem wit_PidUpdateLaw :
    (busy .s3).cfg.numeric = .exact ∧ (busy .s3).minOut = some 0 ∧ (busy .s3).maxOut = some 1 ∧
    (busy .s3).ts = some (1 / 40) ∧ (busy .s3).kp = some (1 / 5) ∧ (busy .s3).ki = some 50 ∧ (busy .s3).kd = some 0 ∧
    (busy .s3).setpoint = some (1 / 2) ∧ (0 : NumV) < 1 / 40 ∧ (busy .s3).ph = .s3 ∧
    (busy .s3).smooth = some (1 / 2) := by decide +kernel

/-- V-C2 above the upper bound with e > 0; V-C9 below the lower with e < 0. -/
theorem wit_AntiWindupKeepsIntegrator :
    after (exec (.pidUpdate 0) { busy .s1 with integ := 1 / 80, ePrev := 1 / 2 }) (fun t => t.output) = some 1 ∧
    ((1 : NumV) < 1 / 5 * (1 / 2 - 0) + 50 * (1 / 80 + (1 / 2 - 0) * (1 / 40)) + 0 * ((1 / 2 - 0 - 1 / 2) / (1 / 40)) ∧
      (0 : NumV) < 1 / 2) ∧
    after (exec (.pidUpdate 1) { busy .s1 with setpoint := some (1 / 5) }) (fun t => t.output) = some 0 ∧
    ((1 / 5 : NumV) * (1 / 5 - 1) + 50 * (0 + (1 / 5 - 1) * (1 / 40)) + 0 * ((1 / 5 - 1 - 0) / (1 / 40)) < 0 ∧
      (1 / 5 : NumV) < 1) := by decide +kernel

/-- Bounds apart, and bounds that meet. -/
theorem wit_OutputWithinBounds :
    (busy .s1).minOut = some 0 ∧ (busy .s1).maxOut = some 1 ∧ (0 : NumV) ≤ 1 ∧
    completes (exec (.pidUpdate 0) (busy .s1)) = true ∧
    completes (exec (.pidUpdate 0) { busy .s1 with maxOut := some 0 }) = true := by decide +kernel

/-- 30 digits, and 31. -/
theorem wit_DigitAppendsOrDrops :
    ({ busy .s1 with cmdBuf := List.replicate 30 1 }).cmdBuf.length < cfg.cmdBufMax - 1 ∧
    cfg.cmdBufMax - 1 ≤ ({ busy .s1 with cmdBuf := List.replicate 31 1 }).cmdBuf.length := by decide +kernel

theorem wit_CommitSetsSetpoint :
    (busy .s1).cmdBuf = [] ∧ ({ cfg with emptyCommit := .ignore }).emptyCommit = .ignore ∧
    ¬((busy .s1).cmdBuf = [] ∧ (busy .s1).cfg.emptyCommit = .ignore) := by decide +kernel

/-- One digit, and 31. -/
theorem wit_SetpointRoundTrip :
    (busy .s1).cfg.cmdBufMax = 32 ∧ (busy .s1).minOut = some 0 ∧ (busy .s1).maxOut = some 1 ∧
    (busy .s1).cmdBuf = [] ∧ ([5] : List Digit) ≠ [] ∧ (List.replicate 31 (9 : Digit)).length ≤ 31 := by decide +kernel

/-- The clauses of the unwritten fields: each command with one field unwritten that it reads (R227). -/
theorem wit_unwritten_commands :
    refusal (exec .cmdKpUp { busy .s1 with kp := none }) = some (.unwritten .kp) ∧
    refusal (exec .cmdKdDn { busy .s1 with kd := none }) = some (.unwritten .kd) ∧
    refusal (exec .cmdKiUp { busy .s1 with ts := none }) = some (.unwritten .ts) ∧
    refusal (exec .cmdCommit { busy .s1 with maxOut := none }) = some (.unwritten .maxOut) ∧
    refusal (exec .cmdStatus { busy .s1 with setpoint := none }) = some (.unwritten .setpoint) ∧
    refusal (exec .s2Serial { busy .s2 with kp := none, rxFifo := [0x70#8] }) = some (.unwritten .kp) := by
  decide +kernel

/-- The same of the loop phases and the emission. -/
theorem wit_unwritten_phases :
    refusal (exec (.s1Sample 0) { busy .s1 with smooth := none }) = some (.unwritten .s) ∧
    refusal (exec .s3Control { busy .s3 with smooth := none }) = some (.unwritten .s) ∧
    refusal (exec .s3Control { busy .s3 with setpoint := none }) = some (.unwritten .setpoint) ∧
    refusal (exec .s6Emit { busy .s6 with msClock := 25#32, smooth := none }) = some (.unwritten .s) ∧
    refusal (exec .emSend { busy .s6 with em := .e2, quat := none }) = some (.unwritten .quat) ∧
    refusal (exec .emSend { busy .s6 with em := .e2, emRec := ⟨some 1, some 1, none⟩ }) = some (.unwritten .emOdo) := by
  decide +kernel

theorem wit_StatusRecordsState :
    (busy .s1).kp = some (1 / 5) ∧ (busy .s1).ki = some 50 ∧ (busy .s1).kd = some 0 ∧
    (busy .s1).setpoint = some (1 / 2) := by decide +kernel

theorem wit_S1Samples :
    (busy .s1).ph = .s1 ∧ (busy .s1).cfg.numeric = .exact ∧ (busy .s1).smooth = some (1 / 2) := by decide +kernel

/-- No byte, no parser, and a byte whose command completes. -/
theorem wit_S2TakesOneByte :
    (busy .s2).ph = .s2 ∧ (busy .s2).rxFifo = [] ∧ ({ cfg with pidTuner := false }).pidTuner = false ∧
    (busy .s2).cfg.pidTuner = true ∧ ({ busy .s2 with rxFifo := [0x70#8, 0x35#8] }).rxFifo = 0x70#8 :: [0x35#8] ∧
    completes (exec (instrOfCommand (decodeCommand 0x70#8)) { busy .s2 with rxFifo := [0x35#8] }) = true := by
  decide +kernel

/-- Both backends, and both levels of RF_RDY; a written level that is not the line's. -/
theorem wit_S4Latches :
    (busy .s4).ph = .s4 ∧ (busy .s4).cfg.rangeBackend = .pwm ∧ ({ cfg with rangeBackend := .i2c }).rangeBackend = .i2c ∧
    (busy .s4).lvl.rfRdy = false ∧
    ({ busy .s4 with lvl := ⟨false, false, false, false, false, true⟩ }).lvl.rfRdy = true ∧
    after (exec (.s4Range (some true) (some 95)) { busy .s4 with cfg := { cfg with rangeBackend := .i2c } })
      (fun t => t.rangeLatch) = some 95 := by decide +kernel

theorem wit_S5Latches : (busy .s5).ph = .s5 := rfl

/-- A difference of the timestep, and of one less. -/
theorem wit_S6EmitsOnTimestep :
    (busy .s6).ph = .s6 ∧ (busy .s6).em = .idle ∧ (busy .s6).cfg.numeric = .exact ∧ (busy .s6).smooth = some (1 / 2) ∧
    emissionDue 25#32 0#32 (busy .s6).cfg.timestepMs = true ∧ emissionDue 24#32 0#32 (busy .s6).cfg.timestepMs = false := by
  decide +kernel

theorem wit_EmOdoReadsPosition :
    ({ busy .s6 with em := .e1 }).ph = .s6 ∧ ({ busy .s6 with em := .e1 }).em = .e1 := by decide

theorem wit_EmSendEmitsLine :
    ({ busy .s6 with em := .e2 }).ph = .s6 ∧ ({ busy .s6 with em := .e2 }).em = .e2 ∧
    (busy .s6).emRec = ⟨some 125, some 620, some (-12)⟩ ∧ (busy .s6).cal = some ⟨3, 3, 3, 3⟩ ∧
    (busy .s6).quat = some ⟨16384, 0, -12, 7⟩ := by decide +kernel

/-- An emission, and a step that leaves the last instant. -/
theorem wit_EmissionsKeepTheTimestep :
    completes (exec .s6Emit { busy .s6 with msClock := 25#32 }) = true ∧ agentOf .s6Emit ≠ some .rst ∧
    completes (exec (.s5Orient ⟨⟨0, 0, 0, 0⟩, ⟨0, 0, 0, 0⟩⟩) (busy .s5)) = true := by decide +kernel

theorem wit_BearingIsClampedQuotient : 0 < 1346 ∧ 0 < 1 ∧ 4294967295 < 2 ^ 32 := by decide

theorem wit_PlainStartupSteps :
    (busy .st1).ph = .st1 ∧ (busy .st2).ph = .st2 ∧ (busy .st4).ph = .st4 ∧ (busy .st6).ph = .st6 ∧
    (busy .st7).ph = .st7 ∧ (busy .st7).cfg.numeric = .exact := by decide

/-- Bounds apart, and bounds that meet. -/
theorem wit_St3InitialisesPid :
    (busy .st3).ph = .st3 ∧ (busy .st3).cfg.numeric = .exact ∧ (busy .st3).cfg.minOut ≤ (busy .st3).cfg.maxOut ∧
    0 < (busy .st3).cfg.ts ∧ ({ cfg with maxOut := 0 }).minOut ≤ ({ cfg with maxOut := 0 }).maxOut := by decide +kernel

theorem wit_St5Polls : (busy .st5).ph = .st5 ∧ ({ busy .st5 with readyFail := 99 }).readyFail + 1 = cfg.readyDiagN := by
  decide +kernel

theorem wit_St8SeedsSt9Caches :
    (busy .st8).ph = .st8 ∧ (busy .st8).cfg.numeric = .exact ∧ (busy .st9).ph = .st9 := by decide

theorem wit_St10Enables : (busy .st10).ph = .st10 := rfl

theorem wit_BytesQueueClocksAdvance : (busy .s1).clkRun = true := rfl

/-- A trace step from a state with the invariant. -/
theorem wit_StepKeepsInv :
    StateInv { busy .s3 with trace := [.word [0x32#8]] } ∧
    completes (step { busy .s3 with trace := [.word [0x32#8]] }) = true := by
  refine ⟨?_, by decide +kernel⟩
  obtain ⟨h1, h2, h3, h4, h5, h6, h7, h8, h9, h10, h11, h12, h13, h14, h15⟩ := busy_inv
  exact ⟨h1, h2, h3, h4, h5, h6, h7, h8, h9, h10, h11, h12, h13, h14, h15⟩

/-- The witness of EnabledStepsComplete and FreeRunNeverStops. -/
theorem wit_EnabledStepsComplete :
    StateInv (busy .s3) ∧ paramsOk (busy .s3).cfg = true ∧ (busy .s3).cfg.numeric = .exact ∧
    (agentOf .s3Control).isSome = true ∧ enabled .s3Control (busy .s3) = true ∧ (busy .s3).trace = [] :=
  ⟨busy_inv, by decide +kernel⟩

/-- A fair run: the one pending request is served, then ST5 polls for ever. -/
def fairAct : Nat → Instr
  | 0 => .qaRise
  | _ + 1 => .st5 false

def fairState : Nat → State
  | 0 => { busy .st5 with pend := ⟨true, false, false, false, false, false⟩ }
  | n + 1 => match exec (fairAct n) (fairState n) with
    | .next t => t
    | .fault _ => State.reset
    | .refused _ => State.reset

theorem poll_again (s : State) (h : s.ph = .st5) :
    ∃ t, exec (.st5 false) s = .next t ∧ t.ph = .st5 ∧ t.pend = s.pend := by
  refine ⟨_, if_pos h, ?_⟩
  constructor <;> (split <;> first | exact h | rfl)

theorem fair_polls (n : Nat) : (fairState (n + 1)).ph = .st5 ∧
    (fairState (n + 1)).pend = ⟨false, false, false, false, false, false⟩ := by
  induction n with
  | zero => decide
  | succ n ih =>
    obtain ⟨t, ht, h1, h2⟩ := poll_again _ ih.1
    have : fairState (n + 2) = t := by simp only [fairState, fairAct] at ht ⊢; rw [ht]
    rw [this]
    exact ⟨h1, h2.trans ih.2⟩

theorem wit_FairRunsServeRequests :
    isRun fairAct fairState ∧ WeaklyFair fairAct fairState ∧
    getSource (fairState 0).pend .qaRise = true ∧ getSource (fairState 0).en .qaRise = true ∧
    completes (step { busy .s3 with trace := [.word [0x32#8]] }) = true := by
  refine ⟨fun n => ⟨(fairState n).trace, (fairState n).choices, ?_⟩, ⟨fun k n h => ?_, fun n => ?_⟩, rfl, rfl,
    by decide +kernel⟩
  · cases n with
    | zero => rfl
    | succ n =>
      obtain ⟨t, ht, -⟩ := poll_again _ (fair_polls n).1
      show exec (.st5 false) (fairState (n + 1)) = .next (fairState (n + 2))
      simp only [fairState, fairAct] at ht ⊢
      rw [ht]
  · have := h (n + 1) (Nat.le_succ n)
    rw [handlerEnabled, (fair_polls n).2] at this
    cases k <;> cases this
  · exact ⟨n + 1, Nat.le_succ n, rfl⟩

/-- A step of a handler, of the foreground, of an operation on a line of its own, of the environment. -/
theorem wit_WritePermissions :
    (agentOf .qaRise = some (.isr .qaRise) ∧ completes (exec .qaRise (busy .s1)) = true) ∧
    (agentOf .s3Control = some .fg ∧ completes (exec .s3Control (busy .s3)) = true) ∧
    (agentOf .cmdKpUp = none ∧ completes (exec .cmdKpUp (busy .s1)) = true) ∧
    (agentOf (.envEdge .encA) = some .env ∧ completes (exec (.envEdge .encA) (busy .s1)) = true) := by decide +kernel

theorem wit_ParametersNeverChange :
    completes (step { busy .s3 with trace := [.word [0x32#8]] }) = true ∧ completes (exec .s3Control (busy .s3)) = true := by
  decide +kernel

/-- The first phase after ST7. -/
theorem wit_ThrottleStaysAfterStartup :
    8 ≤ phaseRank (busy .st8).ph ∧ completes (exec (.st8 0) (busy .st8)) = true ∧ agentOf (.st8 0) ≠ some .rst := by
  decide +kernel

theorem wit_SteeringDutyInRange :
    (busy .s3).minOut = some 0 ∧ (busy .s3).maxOut = some 1 ∧ completes (exec .s3Control (busy .s3)) = true ∧
    (busy .s3).steerDuty = some 0 ∧ (0 : NumV) ≤ 0 ∧ (0 : NumV) ≤ 1 := by decide +kernel

end Sys2Proof.Tests
end

section
/-! PROOFS. The step (00:R7 to R9): which instruction it takes, when that instruction is enabled, and that with no trace
line left there is always one (44:R153). -/

namespace Sys2Proof.Machine

variable {i : Instr} {s s1 t : State}

/-! ### When an operation is enabled -/

/-- What `enabled` asks, one condition for each way an operation is selected (R81, R219, R228, R229). -/
theorem enabled_iff :
    enabled i s = true ↔
      (∀ p, phaseOf i = some p → s.ph = p) ∧ (∀ e, subPhaseOf i = some e → s.em = e) ∧
      (∀ k, agentOf i = some (.isr k) → handlerEnabled k s = true) ∧
      (∀ n, i = .envMs n ∨ i = .envUs n → s.clkRun = true) := by
  cases i <;> simp [enabled, phaseOf, subPhaseOf, agentOf]

theorem offered_iff :
    offered i s = true ↔
      (agentOf i).isSome = true ∧ i.wellFormed = true ∧ enabled i s = true ∧ portsAgree i s = true := by
  simp [offered, and_assoc]

/-! ### The foreground always has a step -/

/-- A free ADC draw meets the port's contract (R63). -/
theorem adcInRange_clamp (y : NumV) : adcInRange (clamp y 0 1) = true := by
  obtain ⟨h0, h1⟩ := clamp_bounds y (zero_le_one : (0 : NumV) ≤ 1)
  simp [adcInRange, h0, h1]

/-- Every phase, and every sub-phase of S6, has its foreground step (R141, R153, R251). -/
theorem foreground_offered (s : State) : offered (foreground s) s = true := by
  have hadc := adcInRange_clamp (Config.adcSample s.choices)
  rw [offered_iff, enabled_iff]
  cases hp : s.ph
  case s6 =>
    cases he : s.em <;> simp [foreground, hp, he, agentOf, phaseOf, subPhaseOf, Instr.wellFormed, portsAgree]
  all_goals
    simp [foreground, hp, hadc, agentOf, phaseOf, subPhaseOf, Instr.wellFormed, portsAgree, lineAgrees]

theorem chosen_offered (s : State) : offered (chosen s) s = true := by
  unfold chosen
  split
  · assumption
  · exact foreground_offered s

/-! ### What a step takes -/

/-- The conditions of R7, one by one. -/
theorem paramsOk_iff {c : Params} :
    paramsOk c = true ↔
      0 < c.ts ∧ 0 < c.tpr ∧ 0 < c.alpha ∧ c.alpha ≤ 1 ∧ c.minOut ≤ c.maxOut ∧ 2 ≤ c.cmdBufMax ∧
        32 ≤ c.wordBits := by
  simp [paramsOk, and_assoc]

theorem fetch_badConfig (hc : paramsOk s.cfg = false) : fetch s = .error .badConfig := by
  simp [fetch, hc]

theorem fetch_free (hc : paramsOk s.cfg = true) (ht : s.trace = []) :
    fetch s = .ok (chosen s, { s with choices := s.choices + 1 }) := by
  simp [fetch, hc, ht]

/-- With a configuration of R7 the one thing `fetch` refuses is a line that names no operation (R86). -/
theorem fetch_error {r : Refusal} (hc : paramsOk s.cfg = true) (h : fetch s = .error r) : ∃ e, r = .unknownId e := by
  unfold fetch at h
  rw [if_pos hc] at h
  split at h
  · cases h
  · split at h
    · cases h
    · exact ⟨_, (Except.error.inj h).symm⟩

/-- What is fetched runs in the same state but for the model's own trace or counter. -/
theorem fetch_frame (h : fetch s = .ok (i, s1)) : ∃ tr c, s1 = { s with trace := tr, choices := c } := by
  unfold fetch at h
  split at h
  · split at h
    · cases h; exact ⟨_, _, rfl⟩
    · split at h
      · cases h; exact ⟨_, _, rfl⟩
      · cases h
  · cases h

theorem step_of_fetch (h : fetch s = .ok (i, s1)) : step s = exec i s1 := by
  simp [step, h]

theorem step_free (hc : paramsOk s.cfg = true) (ht : s.trace = []) :
    step s = exec (chosen s) { s with choices := s.choices + 1 } :=
  step_of_fetch (fetch_free hc ht)

/-- A step that answers a next state is an operation on a state that differs in trace and counter at most. -/
theorem step_eq_next (h : step s = .next t) :
    ∃ i tr c, exec i { s with trace := tr, choices := c } = .next t := by
  cases hf : fetch s with
  | error r => simp [step, hf] at h
  | ok p =>
    obtain ⟨i, s1⟩ := p
    obtain ⟨tr, c, rfl⟩ := fetch_frame hf
    exact ⟨i, tr, c, step_of_fetch hf ▸ h⟩

/-! ### Why an operation is refused -/

/-- The reasons of an operation's own body: R161's, an unwritten field (R14), no number (93:U1). -/
def isBodyRefusal : Refusal → Bool
  | .badPidConfig => true
  | .unwritten _ => true
  | .notANumber => true
  | .notModelled _ => false
  | .badConfig => false
  | .notEnabled => false
  | .unknownId _ => false

/-- A computation is refused for a reason of an operation's body, if at all. -/
def BodyRefuses {α : Type} (x : Except Refusal α) : Prop := ∀ r, x = .error r → isBodyRefusal r = true

@[simp] theorem bodyRefuses_ok {α : Type} (a : α) : BodyRefuses (.ok a : Except Refusal α) := nofun

@[simp] theorem bodyRefuses_error {α : Type} (r : Refusal) :
    BodyRefuses (.error r : Except Refusal α) ↔ isBodyRefusal r = true := by
  simp [BodyRefuses]

/-- A sequence is refused for such a reason exactly where each of its parts is. -/
@[simp] theorem bodyRefuses_bind {α β : Type} {x : Except Refusal α} {f : α → Except Refusal β} :
    BodyRefuses (x >>= f) ↔ BodyRefuses x ∧ ∀ a, x = .ok a → BodyRefuses (f a) := by
  constructor
  · exact fun h => ⟨fun r hr => h r (bind_eq_error.mpr (.inl hr)),
      fun a ha r hr => h r (bind_eq_error.mpr (.inr ⟨a, ha, hr⟩))⟩
  · rintro ⟨hx, hf⟩ r h
    obtain h | ⟨a, ha, h⟩ := bind_eq_error.mp h
    · exact hx r h
    · exact hf a ha r h

@[simp] theorem bodyRefuses_ite {α : Type} {c : Prop} [Decidable c] {x y : Except Refusal α} :
    BodyRefuses (if c then x else y) ↔ (c → BodyRefuses x) ∧ (¬ c → BodyRefuses y) := by
  split <;> simp [*]

@[simp] theorem bodyRefuses_need {α : Type} (x : Option α) (f : Field) : BodyRefuses (need x f) := by
  cases x <;> simp [isBodyRefusal]

@[simp] theorem bodyRefuses_roundNum (nm : Numeric) (x : NumV) : BodyRefuses (roundNum nm x) := by
  obtain ⟨v, h⟩ | ⟨-, h⟩ := roundNum_cases nm x
  · simp [h]
  · simp [h, isBodyRefusal]

@[simp] theorem bodyRefuses_literal (nm : Numeric) (x : NumV) : BodyRefuses (literal nm x) :=
  bodyRefuses_roundNum nm x

@[simp] theorem bodyRefuses_addNum (nm : Numeric) (a b : NumV) : BodyRefuses (addNum nm a b) :=
  bodyRefuses_roundNum nm _

@[simp] theorem bodyRefuses_subNum (nm : Numeric) (a b : NumV) : BodyRefuses (subNum nm a b) :=
  bodyRefuses_roundNum nm _

@[simp] theorem bodyRefuses_mulNum (nm : Numeric) (a b : NumV) : BodyRefuses (mulNum nm a b) :=
  bodyRefuses_roundNum nm _

@[simp] theorem bodyRefuses_divNum (nm : Numeric) (a b : NumV) : BodyRefuses (divNum nm a b) := by
  simp [divNum, isBodyRefusal]

@[simp] theorem bodyRefuses_rollBack (nm : Numeric) (w : Bool) (i e : NumV) : BodyRefuses (rollBack nm w i e) := by
  simp [rollBack]

@[simp] theorem bodyRefuses_smSeed (y : NumV) (s : State) : BodyRefuses (smSeed y s) := by
  simp [smSeed]

@[simp] theorem bodyRefuses_smUpdate (y : NumV) (s : State) : BodyRefuses (smUpdate y s) := by
  simp [smUpdate]

@[simp] theorem bodyRefuses_pidInit (lo hi p : NumV) (s : State) : BodyRefuses (pidInit lo hi p s) := by
  simp [pidInit, isBodyRefusal]

@[simp] theorem bodyRefuses_pidReady (s : State) : BodyRefuses (pidReady s) := by
  simp [pidReady]

@[simp] theorem bodyRefuses_pidUpdate (y : NumV) (s : State) : BodyRefuses (pidUpdate y s) := by
  simp [pidUpdate]

@[simp] theorem bodyRefuses_pidSetpid (p i d : NumV) (s : State) : BodyRefuses (pidSetpid p i d s) := by
  simp [pidSetpid]

@[simp] theorem bodyRefuses_pidSetpoint (v : NumV) (s : State) : BodyRefuses (pidSetpoint v s) := by
  simp [pidSetpoint]

theorem bodyRefuses_stepGains {f g k : NumV → Except Refusal NumV} (s : State) (hf : ∀ x, BodyRefuses (f x))
    (hg : ∀ x, BodyRefuses (g x)) (hk : ∀ x, BodyRefuses (k x)) : BodyRefuses (stepGains f g k s) := by
  simp [stepGains, hf, hg, hk]

@[simp] theorem bodyRefuses_keepGain (g : NumV) : BodyRefuses (keepGain g) := bodyRefuses_ok g

@[simp] theorem bodyRefuses_raiseGain (nm : Numeric) (k g : NumV) : BodyRefuses (raiseGain nm k g) := by
  simp [raiseGain]

@[simp] theorem bodyRefuses_lowerGain (nm : Numeric) (k g : NumV) : BodyRefuses (lowerGain nm k g) := by
  simp [lowerGain]

@[simp] theorem bodyRefuses_performCommand (c : Command) (s : State) : BodyRefuses (performCommand c s) := by
  cases c with
  | kpUp | kpDn | kiUp | kiDn | kdUp | kdDn => apply bodyRefuses_stepGains <;> simp
  | digit d => simp [performCommand, cmdDigit]
  | commit => simp [performCommand, cmdCommit]
  | status => simp [performCommand, cmdStatus]

@[simp] theorem bodyRefuses_s2Serial (s : State) : BodyRefuses (s2Serial s) := by
  unfold s2Serial
  split
  · split <;> simp
  · simp

@[simp] theorem bodyRefuses_s4Range (rdy : Option Bit) (d : Option Word) (s : State) :
    BodyRefuses (s4Range rdy d s) := by
  unfold s4Range
  split <;> simp

/-- An outcome that is refused only because the operation is not enabled, or for a reason of its body. -/
def OperationRefuses (o : Out) : Prop := ∀ r, o = .refused r → r = .notEnabled ∨ isBodyRefusal r = true

theorem operationRefuses_next (s : State) : OperationRefuses (.next s) := nofun

theorem operationRefuses_notEnabled : OperationRefuses (.refused .notEnabled) := fun _ h =>
  .inl (Host.Outcome.refused.inj h).symm

theorem operationRefuses_finish {x : Except Refusal State} (h : BodyRefuses x) : OperationRefuses (finish x) :=
  fun r hr => .inr (h r (finish_eq_refused.mp hr))

theorem operationRefuses_takeInterrupt (k : Source) (body : State → State) (s : State) :
    OperationRefuses (takeInterrupt k body s) := by
  unfold takeInterrupt
  split
  · exact operationRefuses_next _
  · exact operationRefuses_notEnabled

theorem operationRefuses_clockStep (body : State → State) (s : State) : OperationRefuses (clockStep body s) := by
  unfold clockStep
  split
  · exact operationRefuses_next _
  · exact operationRefuses_notEnabled

theorem operationRefuses_phaseStep (p : Phase) {body : State → Except Refusal State} {s : State}
    (h : BodyRefuses (body s)) : OperationRefuses (phaseStep p body s) := by
  unfold phaseStep
  split
  · exact operationRefuses_finish h
  · exact operationRefuses_notEnabled

theorem operationRefuses_emitStep (e : SubPhase) {body : State → Except Refusal State} {s : State}
    (h : BodyRefuses (body s)) : OperationRefuses (emitStep e body s) := by
  unfold emitStep
  split
  · exact operationRefuses_finish h
  · exact operationRefuses_notEnabled

theorem operationRefuses_command (c : Command) (s : State) : OperationRefuses (exec (instrOfCommand c) s) := by
  rw [exec_command]
  exact operationRefuses_finish (bodyRefuses_performCommand c s)

/-- The complete list of R227's stops of an operation: `exec` raises no reason of the step's. -/
theorem exec_operationRefuses (i : Instr) (s : State) : OperationRefuses (exec i s) := by
  cases i
  case reset | envEdge | envRx => exact operationRefuses_next _
  case qaRise | qbEdge | pwRise | pwFall | leTick | liIndex => exact operationRefuses_takeInterrupt _ _ s
  case envMs n => exact (operationRefuses_clockStep _ s : OperationRefuses (execEnvMs n s))
  case envUs n => exact (operationRefuses_clockStep _ s : OperationRefuses (execEnvUs n s))
  case smSeed y => exact operationRefuses_finish (bodyRefuses_smSeed y s)
  case smUpdate y => exact operationRefuses_finish (bodyRefuses_smUpdate y s)
  case pidInit lo hi p => exact operationRefuses_finish (bodyRefuses_pidInit lo hi p s)
  case pidUpdate y => exact operationRefuses_finish (bodyRefuses_pidUpdate y s)
  case pidSetpid p i d => exact operationRefuses_finish (bodyRefuses_pidSetpid p i d s)
  case pidSetpoint v => exact operationRefuses_finish (bodyRefuses_pidSetpoint v s)
  case s1Sample => exact operationRefuses_phaseStep _ (by simp [s1Sample])
  case s2Serial => exact operationRefuses_phaseStep _ (bodyRefuses_s2Serial s)
  case s3Control => exact operationRefuses_phaseStep _ (by simp [s3Control])
  case s4Range rdy d => exact operationRefuses_phaseStep _ (bodyRefuses_s4Range rdy d s)
  case s6Emit => exact operationRefuses_emitStep _ (by simp [s6Emit])
  case emSend => exact operationRefuses_emitStep _ (by simp [emSend])
  case emOdo => exact operationRefuses_emitStep _ (bodyRefuses_ok _)
  case st3 => exact operationRefuses_phaseStep _ (by simp [st3])
  case st5 => exact operationRefuses_phaseStep _ (by simp [st5])
  case st7 => exact operationRefuses_phaseStep _ (by simp [st7])
  case st8 => exact operationRefuses_phaseStep _ (by simp [st8])
  case s5Orient | st1 | st2 | st4 | st6 | st9 | st10 => exact operationRefuses_phaseStep _ (bodyRefuses_ok _)
  case cmdKpUp => exact operationRefuses_command .kpUp s
  case cmdKpDn => exact operationRefuses_command .kpDn s
  case cmdKiUp => exact operationRefuses_command .kiUp s
  case cmdKiDn => exact operationRefuses_command .kiDn s
  case cmdKdUp => exact operationRefuses_command .kdUp s
  case cmdKdDn => exact operationRefuses_command .kdDn s
  case cmdDigit d => exact operationRefuses_command (.digit d) s
  case cmdCommit => exact operationRefuses_command .commit s
  case cmdStatus => exact operationRefuses_command .status s

/-- `refuse(bad_config)` is raised where the configuration is outside R7 and nowhere else. -/
theorem step_badConfig_iff (s : State) : step s = .refused .badConfig ↔ paramsOk s.cfg = false := by
  constructor
  · intro h
    by_contra hc
    replace hc := eq_true_of_ne_false hc
    cases hf : fetch s with
    | error r =>
      obtain ⟨e, rfl⟩ := fetch_error hc hf
      simp [step, hf] at h
    | ok p =>
      obtain ⟨i, s1⟩ := p
      obtain hr | hr := exec_operationRefuses i s1 _ (step_of_fetch hf ▸ h)
      · cases hr
      · cases hr
  · intro hc
    simp [step, fetch_badConfig hc]

/-! ### What no operation writes -/

/-- A command operation is no step of an agent (R80). -/
theorem agentOf_instrOfCommand (c : Command) : agentOf (instrOfCommand c) = none := by
  cases c <;> rfl

/-- `i` leaves configuration and trace from `s` to `t`, and moves the counter as far as log 18 and 19 say. -/
structure KeepsParameters (i : Instr) (s t : State) : Prop where
  cfg : t.cfg = s.cfg
  trace : t.trace = s.trace
  choices : t.choices = s.choices ∨
    (agentOf i = some .rst ∧ t.choices = s.choices + 1) ∨
    ∃ rdy, i = .s4Range rdy none ∧ t.choices = s.choices + 1
  resetMoves : agentOf i = some .rst → t.choices = s.choices + 1

/-- An operation other than RESET that leaves all three. -/
theorem keepsParameters_of_eq (hr : agentOf i ≠ some .rst) (hcfg : t.cfg = s.cfg) (htr : t.trace = s.trace)
    (hch : t.choices = s.choices) : KeepsParameters i s t :=
  ⟨hcfg, htr, .inl hch, fun h => absurd h hr⟩

theorem exec_keepsParameters (h : exec i s = .next t) : KeepsParameters i s t := by
  apply exec_cases h (fun i t => KeepsParameters i s t)
  case reset => exact fun _ _ => ⟨rfl, rfl, .inr (.inl ⟨rfl, rfl⟩), fun _ => rfl⟩
  case s4 =>
    rintro - rdy d r c (rfl | ⟨rfl, rfl⟩)
    · exact keepsParameters_of_eq nofun rfl rfl rfl
    · exact ⟨rfl, rfl, .inr (.inr ⟨rdy, rfl, rfl⟩), nofun⟩
  case qaRise =>
    intro _
    rw [qaRiseBody_frame]
    exact keepsParameters_of_eq nofun rfl rfl rfl
  case s2b =>
    intro _ b rest u _ hu
    obtain ⟨hf, -⟩ := performCommand_frame hu
    rw [hf]
    exact keepsParameters_of_eq nofun rfl rfl rfl
  case envEdge =>
    intro l ht _
    rw [ht]
    exact keepsParameters_of_eq nofun rfl rfl rfl
  case cmd =>
    intro c hc
    obtain ⟨hf, -⟩ := performCommand_frame hc
    rw [hf]
    exact keepsParameters_of_eq (by simp [agentOf_instrOfCommand]) rfl rfl rfl
  all_goals intros; exact keepsParameters_of_eq nofun rfl rfl rfl

end Sys2Proof.Machine
end

section
/-! PROOFS. Every operation keeps the invariant of Safety.lean. A phase change is one lemma for startup, where each step
adds the facts of the next phase, and one for the loop, where they all hold already. -/

namespace Sys2Proof.Machine

variable {i : Instr} {s t : State}

/-! ### Reset, trace and interrupts -/

theorem StateInv.reset (led0 : Option Bit) (lvl0 : LevelDraws) (s : State) : StateInv (resetState led0 lvl0 s) where
  pendEnabled k := by cases k <;> nofun
  enabledInLoop k := by cases k <;> nofun
  emissionInS6 h := absurd rfl h
  bufferBounded := Nat.zero_le _
  boundsOrdered := nofun
  periodPositive := nofun
  pidWritten h := absurd h (by decide : ¬ 4 ≤ 1)
  seeded h := absurd h (by decide : ¬ 9 ≤ 1)
  sampled := nofun
  emissionBegun h := absurd rfl h
  odometerRead := nofun
  timersRun h := absurd h (by decide : ¬ 3 ≤ 1)
  timersStand _ := ⟨rfl, rfl⟩
  periodsSet h := absurd h (by decide : ¬ 7 ≤ 1)
  throttleDriven h := absurd h (by decide : ¬ 8 ≤ 1)

/-- The invariant does not speak of the model's own trace and counter. -/
theorem StateInv.set_trace_choices (hi : StateInv s) (tr : List TraceLine) (c : Nat) :
    StateInv { s with trace := tr, choices := c } := { hi with }

theorem StateInv.clearPend (hi : StateInv s) (k : Source) : StateInv (writePend k false s) :=
  { hi with
    pendEnabled := fun j hj => by
      rw [writePend_pend, getSource_setSource] at hj
      split at hj
      · cases hj
      · exact hi.pendEnabled j hj }

/-- Outside S6 no emission is under way. -/
theorem StateInv.em_idle (hi : StateInv s) (h : s.ph ≠ .s6) : s.em = .idle :=
  not_not.mp (mt hi.emissionInS6 h)

/-- Before the loop no source is enabled. -/
theorem StateInv.en_eq_false (hi : StateInv s) (h : phaseRank s.ph < 11) (k : Source) : getSource s.en k = false :=
  Bool.eq_false_iff.mpr fun hk => absurd (hi.enabledInLoop k hk) (Nat.not_le.mpr h)

/-! ### Phase changes -/

theorem phaseRank_s6 : phaseRank .s6 = 16 := rfl

/-- A change of phase within the loop. -/
theorem StateInv.goto_loop (hi : StateInv s) {p : Phase} (hs : 11 ≤ phaseRank s.ph) (hp : 11 ≤ phaseRank p)
    (hem : s.em = .idle) (hsample : p = .s6 → s.cal.isSome ∧ s.quat.isSome) : StateInv (goto p s) :=
  { hi with
    enabledInLoop := fun _ _ => hp
    emissionInS6 := fun h => absurd hem h
    pidWritten := fun _ => hi.pidWritten (by omega)
    seeded := fun _ => hi.seeded (by omega)
    sampled := hsample
    timersRun := fun _ => hi.timersRun (by omega)
    periodsSet := fun _ => hi.periodsSet (by omega)
    throttleDriven := fun _ => hi.throttleDriven (by omega) }

/-- A startup step to the next phase, which owes the facts that begin with that phase. -/
theorem StateInv.goto_startup (hi : StateInv s) {p : Phase} (hp : phaseRank p = phaseRank s.ph + 1)
    (hlast : phaseRank p < 11)
    (htimers : phaseRank p = 3 → s.clkRun = true)
    (hpid : phaseRank p = 4 → s.minOut.isSome ∧ s.maxOut.isSome ∧ s.ts.isSome ∧ s.kp.isSome ∧ s.ki.isSome ∧
      s.kd.isSome ∧ s.setpoint.isSome)
    (hperiods : phaseRank p = 7 →
      s.steerPeriodUs = some s.cfg.pwmPeriodUs ∧ s.throttlePeriodUs = some s.cfg.pwmPeriodUs)
    (hthrottle : phaseRank p = 8 → s.throttleDuty.isSome)
    (hseed : phaseRank p = 9 → s.smooth.isSome) : StateInv (goto p s) :=
  have since {n : Nat} {Q : Prop} (hnew : phaseRank p = n → Q) (hold : n ≤ phaseRank s.ph → Q)
      (h : n ≤ phaseRank p) : Q := by
    obtain h | h := h.eq_or_lt
    · exact hnew h.symm
    · exact hold (by omega)
  { hi with
    enabledInLoop := fun k hk => absurd (hi.enabledInLoop k hk) (by omega)
    emissionInS6 := fun h => absurd (hi.em_idle fun h6 => by rw [h6, phaseRank_s6] at hp; omega) h
    pidWritten := since hpid hi.pidWritten
    seeded := since hseed hi.seeded
    sampled := fun (h : p = .s6) => by rw [h, phaseRank_s6] at hlast; omega
    timersRun := since htimers hi.timersRun
    periodsSet := since hperiods hi.periodsSet
    throttleDriven := since hthrottle hi.throttleDriven }

/-- Entering the loop: ST10 enables sources, none of which was enabled before (R261). -/
theorem StateInv.enterLoop (hi : StateInv s) (hp : s.ph = .st10) :
    StateInv { s with en := enableSources s.cfg s.en, ph := .s1 } :=
  have hr : phaseRank s.ph = 10 := by rw [hp]; rfl
  { hi with
    pendEnabled := fun k hk => by
      have hoff := hi.en_eq_false (by omega) k
      rw [hi.pendEnabled k hk] at hoff
      cases hoff
    enabledInLoop := fun _ _ => le_rfl
    emissionInS6 := fun he => absurd (hi.em_idle (by simp [hp])) he
    pidWritten := fun _ => hi.pidWritten (by omega)
    seeded := fun _ => hi.seeded (by omega)
    sampled := nofun
    timersRun := fun _ => hi.timersRun (by omega)
    periodsSet := fun _ => hi.periodsSet (by omega)
    throttleDriven := fun _ => hi.throttleDriven (by omega) }

/-! ### Writes of the smoother and of the commands -/

theorem StateInv.set_smooth (hi : StateInv s) (v : NumV) : StateInv { s with smooth := some v } :=
  { hi with seeded := fun _ => rfl }

theorem performCommand_keeps_inv (hi : StateInv s) {c : Command} (h : performCommand c s = .ok t) : StateInv t := by
  obtain ⟨ht, hkp, hki, hkd, hsp, hbuf⟩ := performCommand_frame h
  rw [ht]
  exact { hi with
    bufferBounded := hbuf hi.bufferBounded
    pidWritten := fun h4 => by
      obtain ⟨hlo, hhi, hts, hp, hi', hd, hs⟩ := hi.pidWritten h4
      exact ⟨hlo, hhi, hts, hkp hp, hki hi', hkd hd, hsp hs⟩ }

/-! ### All operations -/

theorem exec_keeps_inv (hi : StateInv s) (h : exec i s = .next t) : StateInv t := by
  apply exec_cases h (fun _ t => StateInv t)
  case reset => exact fun l lv => .reset l lv s
  case qaRise => exact fun _ => by rw [qaRiseBody_frame]; exact { hi.clearPend .qaRise with }
  case qbEdge => exact fun _ => { hi.clearPend .qbEdge with }
  case pwRise => exact fun _ => { hi.clearPend .pwRise with }
  case pwFall => exact fun _ => { hi.clearPend .pwFall with timersStand := fun hc => ⟨(hi.timersStand hc).1, rfl⟩ }
  case leTick => exact fun _ => { hi.clearPend .leTick with }
  case liIndex => exact fun _ => { hi.clearPend .liIndex with }
  case smSeed | smUpdate => exact fun _ v => hi.set_smooth v
  case pidInit =>
    intro _ _ _ lo hi' p hle hpos
    exact { hi with
      boundsOrdered := by rintro _ _ ⟨⟩ ⟨⟩; exact hle
      periodPositive := by rintro _ ⟨⟩; exact hpos
      pidWritten := fun h4 => by
        obtain ⟨-, -, -, hgains⟩ := hi.pidWritten h4
        exact ⟨rfl, rfl, rfl, hgains⟩ }
  case pidUpdate => exact fun _ _ _ _ _ _ _ _ => { hi with }
  case pidSetpid =>
    intros
    exact { hi with
      pidWritten := fun h4 => by
        obtain ⟨hlo, hhi, hts, -, -, -, hsp⟩ := hi.pidWritten h4
        exact ⟨hlo, hhi, hts, rfl, rfl, rfl, hsp⟩ }
  case pidSetpoint =>
    intros
    exact { hi with
      pidWritten := fun h4 => by
        obtain ⟨hlo, hhi, hts, hkp, hki, hkd, -⟩ := hi.pidWritten h4
        exact ⟨hlo, hhi, hts, hkp, hki, hkd, rfl⟩ }
  case s1 =>
    intro hp _ v
    exact (hi.set_smooth v).goto_loop (by simp [hp, phaseRank]) (by decide) (hi.em_idle (by simp [hp])) nofun
  case s2a =>
    exact fun hp => hi.goto_loop (by simp [hp, phaseRank]) (by decide) (hi.em_idle (by simp [hp])) nofun
  case s2b =>
    intro hp b rest u _ hu
    have hw : StateInv u := performCommand_keeps_inv (s := { s with rxFifo := rest }) { hi with } hu
    obtain ⟨hf, -⟩ := performCommand_frame hu
    have hph : u.ph = .s2 := by rw [hf]; exact hp
    exact hw.goto_loop (by simp [hph, phaseRank]) (by decide) (hw.em_idle (by simp [hph])) nofun
  case s3 =>
    intro hp i u e lo hi' _ _
    have hw : StateInv { s with
      integ := i, output := clamp u lo hi', ePrev := e, steerDuty := some (clamp u lo hi') } := { hi with }
    exact hw.goto_loop (by simp [hp, phaseRank]) (by decide) (hi.em_idle (by simp [hp])) nofun
  case s4 =>
    intro hp rdy d r c _
    have hw : StateInv { s with rangeLatch := r, choices := c } := { hi with }
    exact hw.goto_loop (by simp [hp, phaseRank]) (by decide) (hi.em_idle (by simp [hp])) nofun
  case s5 =>
    intro hp o
    have hw : StateInv { s with cal := some o.cal, quat := some o.quat } :=
      { hi with sampled := fun _ => ⟨rfl, rfl⟩ }
    exact hw.goto_loop (by simp [hp, phaseRank]) (by decide) (hi.em_idle (by simp [hp])) fun _ => ⟨rfl, rfl⟩
  case s6a => exact fun hp he => hi.goto_loop (by simp [hp, phaseRank]) (by decide) he nofun
  case s6b =>
    exact fun hp _ _ _ =>
      { hi with emissionInS6 := fun _ => hp, emissionBegun := fun _ => ⟨rfl, rfl⟩, odometerRead := nofun }
  case emOdo =>
    intro hp he
    exact { hi with
      emissionInS6 := fun _ => hp
      emissionBegun := fun _ => hi.emissionBegun (by simp [he])
      odometerRead := fun _ => rfl }
  case emSend =>
    intro hp _ x
    have hw : StateInv { s with txLog := s.txLog ++ [.telem x], em := .idle } :=
      { hi with emissionInS6 := nofun, emissionBegun := nofun, odometerRead := nofun }
    exact hw.goto_loop (by simp [hp, phaseRank]) (by decide) rfl nofun
  case st1 => exact fun hp => hi.goto_startup (by rw [hp]; rfl) (by decide) nofun nofun nofun nofun nofun
  case st2 =>
    intro hp
    have hw : StateInv { s with clkRun := true } := { hi with timersRun := fun _ => rfl, timersStand := nofun }
    exact hw.goto_startup (by simp [hp, phaseRank]) (by decide) (fun _ => rfl) nofun nofun nofun nofun
  case st3 =>
    intro hp lo hi' p kp ki kd sp hle hpos
    have hw : StateInv { s with
        minOut := some lo, maxOut := some hi', ts := some p, kp := some kp, ki := some ki, kd := some kd,
        setpoint := some sp } :=
      { hi with
        boundsOrdered := by rintro _ _ ⟨⟩ ⟨⟩; exact hle
        periodPositive := by rintro _ ⟨⟩; exact hpos
        pidWritten := fun _ => ⟨rfl, rfl, rfl, rfl, rfl, rfl, rfl⟩ }
    exact hw.goto_startup (by simp [hp, phaseRank]) (by decide) nofun (fun _ => ⟨rfl, rfl, rfl, rfl, rfl, rfl, rfl⟩)
      nofun nofun nofun
  case st4 => exact fun hp => hi.goto_startup (by rw [hp]; rfl) (by decide) nofun nofun nofun nofun nofun
  case st5a => exact fun hp => hi.goto_startup (by rw [hp]; rfl) (by decide) nofun nofun nofun nofun nofun
  case st5b => exact fun _ => { hi with }
  case st6 =>
    intro hp
    have hw : StateInv { s with
        steerPeriodUs := some s.cfg.pwmPeriodUs, throttlePeriodUs := some s.cfg.pwmPeriodUs } :=
      { hi with periodsSet := fun _ => ⟨rfl, rfl⟩ }
    exact hw.goto_startup (by simp [hp, phaseRank]) (by decide) nofun nofun (fun _ => ⟨rfl, rfl⟩) nofun nofun
  case st7 =>
    intro hp d
    have hw : StateInv { s with throttleDuty := some d } := { hi with throttleDriven := fun _ => rfl }
    exact hw.goto_startup (by simp [hp, phaseRank]) (by decide) nofun nofun nofun (fun _ => rfl) nofun
  case st8 =>
    intro hp _ v
    exact (hi.set_smooth v).goto_startup (by simp [hp, phaseRank]) (by decide) nofun nofun nofun nofun fun _ => rfl
  case st9 =>
    intro hp _
    have hw : StateInv { s with prevB := s.lvl.encB } := { hi with }
    exact hw.goto_startup (by simp [hp, phaseRank]) (by decide) nofun nofun nofun nofun nofun
  case st10 => exact hi.enterLoop
  case envEdge =>
    intro l ht hpend
    have hkept : ∀ k, getSource t.pend k = true → getSource s.en k = true := fun k hk => by
      rw [hpend, Bool.or_eq_true, Bool.and_eq_true] at hk
      obtain hold | ⟨-, hen⟩ := hk
      · exact hi.pendEnabled k hold
      · exact hen
    rw [ht]
    exact { hi with pendEnabled := hkept }
  case envRx => exact fun _ => { hi with }
  case envMs | envUs =>
    exact fun hc _ => { hi with timersStand := fun hs => absurd hc (Bool.eq_false_iff.mp hs) }
  case cmd => exact fun c hc => performCommand_keeps_inv hi hc

/-- A step keeps the invariant: what it runs is an operation on a state that differs in trace and counter at most. -/
theorem step_keeps_inv (hi : StateInv s) (h : step s = .next t) : StateInv t := by
  obtain ⟨i, tr, c, he⟩ := step_eq_next h
  exact exec_keeps_inv (hi.set_trace_choices tr c) he

end Sys2Proof.Machine
end

section
/-! PROOFS. Under NUMERIC = exact every operation completes where the fields it reads are written (10_state.md
introduction, 60:R225), and the invariant has them written wherever an agent's step is enabled. -/

namespace Sys2Proof.Machine

variable {i : Instr} {s t : State}

/-! ### The operations on the state, NUMERIC = exact -/

theorem smSeed_exact (hn : s.cfg.numeric = .exact) (y : NumV) : smSeed y s = .ok { s with smooth := some y } := by
  simp [smSeed, hn]

theorem smUpdate_exact {v : NumV} (hn : s.cfg.numeric = .exact) (hv : s.smooth = some v) (y : NumV) :
    smUpdate y s = .ok { s with smooth := some (s.cfg.alpha * y + (1 - s.cfg.alpha) * v) } := by
  simp [smUpdate, hn, hv]

theorem pidInit_exact {lo hi p : NumV} (hn : s.cfg.numeric = .exact) (hle : lo ≤ hi) (hp : 0 < p) :
    pidInit lo hi p s = .ok { s with minOut := some lo, maxOut := some hi, ts := some p } := by
  simp [pidInit, hn, hle, hp]

theorem rollBack_exact (w : Bool) (a b : NumV) : rollBack .exact w a b = .ok (if w then a - b else a) := by
  unfold rollBack
  split <;> rfl

@[simp] theorem raiseGain_exact (k g : NumV) : raiseGain .exact k g = .ok (g + k) := rfl
@[simp] theorem lowerGain_exact (k g : NumV) : lowerGain .exact k g = .ok (g - k) := rfl

section Written

variable {lo hi p : NumV} (hlo : s.minOut = some lo) (hhi : s.maxOut = some hi) (hts : s.ts = some p)

include hlo hhi hts

theorem pidReady_written : pidReady s = .ok (lo, hi, p) := pidReady_eq_ok.mpr ⟨hlo, hhi, hts⟩

theorem pidSetpid_exact (hn : s.cfg.numeric = .exact) (kp ki kd : NumV) :
    pidSetpid kp ki kd s = .ok { s with kp := some kp, ki := some ki, kd := some kd } := by
  simp [pidSetpid, pidReady_written hlo hhi hts, hn]

theorem pidSetpoint_exact (hn : s.cfg.numeric = .exact) (v : NumV) :
    pidSetpoint v s = .ok { s with setpoint := some (clamp v lo hi) } := by
  simp [pidSetpoint, pidReady_written hlo hhi hts, hn]

theorem pidUpdate_exact {kp ki kd sp : NumV} (hn : s.cfg.numeric = .exact) (hkp : s.kp = some kp)
    (hki : s.ki = some ki) (hkd : s.kd = some kd) (hsp : s.setpoint = some sp) (hp : 0 < p) (y : NumV) :
    pidUpdate y s =
      let e := sp - y
      let i1 := s.integ + e * p
      let u := kp * e + ki * i1 + kd * ((e - s.ePrev) / p)
      .ok { s with integ := if windup u lo hi e then i1 - e * p else i1, output := clamp u lo hi, ePrev := e } := by
  simp [pidUpdate, pidReady_written hlo hhi hts, hn, hkp, hki, hkd, hsp, divNum_exact _ hp.ne', rollBack_exact]

theorem stepGains_exact {f g k : NumV → Except Refusal NumV} {kp ki kd kp' ki' kd' : NumV}
    (hn : s.cfg.numeric = .exact) (hkp : s.kp = some kp) (hki : s.ki = some ki) (hkd : s.kd = some kd)
    (hf : f kp = .ok kp') (hg : g ki = .ok ki') (hk : k kd = .ok kd') :
    stepGains f g k s = .ok { s with kp := some kp', ki := some ki', kd := some kd' } := by
  simp [stepGains, hkp, hki, hkd, hf, hg, hk, pidSetpid_exact hlo hhi hts hn]

theorem cmdCommit_exact (hn : s.cfg.numeric = .exact) (hc : ¬(s.cmdBuf = [] ∧ s.cfg.emptyCommit = .ignore)) :
    cmdCommit s =
      .ok { s with setpoint := some (clamp ((digitsValue s.cmdBuf : NumV) / 1000) lo hi), cmdBuf := [] } := by
  simp [cmdCommit, hc, hn, divNum_exact, pidSetpoint_exact hlo hhi hts hn]

/-- Every command completes once the controller is written. -/
theorem performCommand_completes {kp ki kd sp : NumV} (hn : s.cfg.numeric = .exact) (hkp : s.kp = some kp)
    (hki : s.ki = some ki) (hkd : s.kd = some kd) (hsp : s.setpoint = some sp) (c : Command) :
    ∃ t, performCommand c s = .ok t := by
  have gains {f g k : NumV → Except Refusal NumV} {kp' ki' kd' : NumV} (hf : f kp = .ok kp') (hg : g ki = .ok ki')
      (hk : k kd = .ok kd') : ∃ t, stepGains f g k s = .ok t :=
    ⟨_, stepGains_exact hlo hhi hts hn hkp hki hkd hf hg hk⟩
  cases c with
  | kpUp => exact gains (by rw [hn]; exact raiseGain_exact _ _) rfl rfl
  | kpDn => exact gains (by rw [hn]; exact lowerGain_exact _ _) rfl rfl
  | kiUp => exact gains rfl (by rw [hn]; exact raiseGain_exact _ _) rfl
  | kiDn => exact gains rfl (by rw [hn]; exact lowerGain_exact _ _) rfl
  | kdUp => exact gains rfl rfl (by rw [hn]; exact raiseGain_exact _ _)
  | kdDn => exact gains rfl rfl (by rw [hn]; exact lowerGain_exact _ _)
  | digit d =>
    simp only [performCommand, cmdDigit]
    split <;> exact ⟨_, rfl⟩
  | commit =>
    by_cases hc : s.cmdBuf = [] ∧ s.cfg.emptyCommit = .ignore
    · exact ⟨s, if_pos hc⟩
    · exact ⟨_, cmdCommit_exact hlo hhi hts hn hc⟩
  | status => exact ⟨_, by simp [performCommand, cmdStatus, hkp, hki, hkd, hsp]; rfl⟩

end Written

/-! ### What the invariant has written -/

/-- The controller's values from ST4 on. -/
theorem StateInv.pid_values (hinv : StateInv s) (h : 4 ≤ phaseRank s.ph) :
    ∃ lo hi p kp ki kd sp, s.minOut = some lo ∧ s.maxOut = some hi ∧ s.ts = some p ∧ s.kp = some kp ∧
      s.ki = some ki ∧ s.kd = some kd ∧ s.setpoint = some sp ∧ 0 < p := by
  obtain ⟨hlo, hhi, hts, hkp, hki, hkd, hsp⟩ := hinv.pidWritten h
  obtain ⟨lo, hlo⟩ := Option.isSome_iff_exists.mp hlo
  obtain ⟨hi, hhi⟩ := Option.isSome_iff_exists.mp hhi
  obtain ⟨p, hts⟩ := Option.isSome_iff_exists.mp hts
  obtain ⟨kp, hkp⟩ := Option.isSome_iff_exists.mp hkp
  obtain ⟨ki, hki⟩ := Option.isSome_iff_exists.mp hki
  obtain ⟨kd, hkd⟩ := Option.isSome_iff_exists.mp hkd
  obtain ⟨sp, hsp⟩ := Option.isSome_iff_exists.mp hsp
  exact ⟨lo, hi, p, kp, ki, kd, sp, hlo, hhi, hts, hkp, hki, hkd, hsp, hinv.periodPositive p hts⟩

/-- The smoothed value from ST9 on. -/
theorem StateInv.smooth_value (hi : StateInv s) (h : 9 ≤ phaseRank s.ph) : ∃ v, s.smooth = some v :=
  Option.isSome_iff_exists.mp (hi.seeded h)

/-! ### The foreground's steps complete -/

theorem s1Sample_completes (hi : StateInv s) (hn : s.cfg.numeric = .exact) (hp : s.ph = .s1) (y : NumV) :
    ∃ t, s1Sample y s = .ok t := by
  obtain ⟨v, hv⟩ := hi.smooth_value (by simp [hp, phaseRank])
  exact ⟨_, by rw [s1Sample, smUpdate_exact hn hv]; rfl⟩

theorem s2Serial_completes (hi : StateInv s) (hn : s.cfg.numeric = .exact) (hp : s.ph = .s2) :
    ∃ t, s2Serial s = .ok t := by
  obtain ⟨lo, hi, p, kp, ki, kd, sp, hlo, hhi, hts, hkp, hki, hkd, hsp, -⟩ :=
    hi.pid_values (by simp [hp, phaseRank])
  unfold s2Serial rxGetc
  cases s.cfg.pidTuner with
  | false => exact ⟨_, rfl⟩
  | true =>
    cases s.rxFifo with
    | nil => exact ⟨_, rfl⟩
    | cons b rest =>
      obtain ⟨u, hu⟩ := performCommand_completes (s := { s with rxFifo := rest }) hlo hhi hts hn hkp hki hkd hsp
        (decodeCommand b)
      exact ⟨goto .s3 u, by simp [hu]⟩

theorem s3Control_completes (hi : StateInv s) (hn : s.cfg.numeric = .exact) (hp : s.ph = .s3) :
    ∃ t, s3Control s = .ok t := by
  obtain ⟨v, hv⟩ := hi.smooth_value (by simp [hp, phaseRank])
  obtain ⟨lo, hi, p, kp, ki, kd, sp, hlo, hhi, hts, hkp, hki, hkd, hsp, hpos⟩ :=
    hi.pid_values (by simp [hp, phaseRank])
  exact ⟨_, by rw [s3Control, hv, need_some, ok_bind, pidUpdate_exact hlo hhi hts hn hkp hki hkd hsp hpos]; rfl⟩

theorem s4Range_completes (rdy : Option Bit) (d : Option Word) (s : State) : ∃ t, s4Range rdy d s = .ok t := by
  unfold s4Range
  split <;> exact ⟨_, rfl⟩

theorem s6Emit_completes (hi : StateInv s) (hn : s.cfg.numeric = .exact) (hp : s.ph = .s6) :
    ∃ t, s6Emit s = .ok t := by
  obtain ⟨v, hv⟩ := hi.smooth_value (by simp [hp, phaseRank])
  simp only [s6Emit, hv, hn, need_some, ok_bind, mulNum_exact]
  split <;> exact ⟨_, rfl⟩

theorem emSend_completes (hi : StateInv s) (hp : s.ph = .s6) (he : s.em = .e2) : ∃ t, emSend s = .ok t := by
  obtain ⟨hcal, hquat⟩ := hi.sampled hp
  obtain ⟨ht, hsa⟩ := hi.emissionBegun (by simp [he])
  obtain ⟨c, hcal⟩ := Option.isSome_iff_exists.mp hcal
  obtain ⟨q, hquat⟩ := Option.isSome_iff_exists.mp hquat
  obtain ⟨tm, ht⟩ := Option.isSome_iff_exists.mp ht
  obtain ⟨sa, hsa⟩ := Option.isSome_iff_exists.mp hsa
  obtain ⟨o, hodo⟩ := Option.isSome_iff_exists.mp (hi.odometerRead he)
  exact ⟨_, by rw [emSend, hcal, hquat, ht, hsa, hodo]; rfl⟩

/-- `ST3` writes the configuration's controller, the setpoint clamped (R254). -/
theorem st3_exact (hn : s.cfg.numeric = .exact) (hle : s.cfg.minOut ≤ s.cfg.maxOut) (hts : 0 < s.cfg.ts) :
    st3 s = .ok { s with
      minOut := some s.cfg.minOut, maxOut := some s.cfg.maxOut, ts := some s.cfg.ts,
      kp := some s.cfg.kp0, ki := some s.cfg.ki0, kd := some s.cfg.kd0,
      setpoint := some (clamp s.cfg.setpoint0 s.cfg.minOut s.cfg.maxOut), ph := .st4 } := by
  let s1 : State := { s with minOut := some s.cfg.minOut, maxOut := some s.cfg.maxOut, ts := some s.cfg.ts }
  let s2 : State := { s1 with kp := some s.cfg.kp0, ki := some s.cfg.ki0, kd := some s.cfg.kd0 }
  have h1 : pidInit s.cfg.minOut s.cfg.maxOut s.cfg.ts s = .ok s1 := pidInit_exact hn hle hts
  have h2 : pidSetpid s.cfg.kp0 s.cfg.ki0 s.cfg.kd0 s1 = .ok s2 :=
    pidSetpid_exact (s := s1) rfl rfl rfl hn _ _ _
  have h3 := pidSetpoint_exact (s := s2) rfl rfl rfl hn s.cfg.setpoint0
  exact bind_eq_ok.mpr ⟨s1, h1, bind_eq_ok.mpr ⟨s2, h2, bind_eq_ok.mpr ⟨_, h3, rfl⟩⟩⟩

theorem st3_completes (hc : paramsOk s.cfg = true) (hn : s.cfg.numeric = .exact) : ∃ t, st3 s = .ok t := by
  obtain ⟨hts, -, -, -, hle, -, -⟩ := paramsOk_iff.mp hc
  exact ⟨_, st3_exact hn hle hts⟩

theorem st5_completes (r : Bit) (s : State) : ∃ t, st5 r s = .ok t := by
  unfold st5
  split <;> exact ⟨_, rfl⟩

theorem st7_completes (hn : s.cfg.numeric = .exact) : ∃ t, st7 s = .ok t :=
  ⟨_, by rw [st7, hn]; rfl⟩

theorem st8_completes (hn : s.cfg.numeric = .exact) (y : NumV) : ∃ t, st8 y s = .ok t :=
  ⟨_, by rw [st8, smSeed_exact hn]; rfl⟩

/-! ### Every enabled step of an agent completes -/

theorem takeInterrupt_completes {k : Source} (body : State → State) (h : handlerEnabled k s = true) :
    ∃ t, takeInterrupt k body s = .next t :=
  ⟨_, takeInterrupt_eq_next.mpr ⟨h, rfl⟩⟩

theorem clockStep_completes (body : State → State) (h : s.clkRun = true) : ∃ t, clockStep body s = .next t :=
  ⟨_, clockStep_eq_next.mpr ⟨h, rfl⟩⟩

theorem phaseStep_completes {p : Phase} {body : State → Except Refusal State} (hp : s.ph = p)
    (h : ∃ t, body s = .ok t) : ∃ t, phaseStep p body s = .next t :=
  h.imp fun _ ht => phaseStep_eq_next.mpr ⟨hp, ht⟩

theorem emitStep_completes {e : SubPhase} {body : State → Except Refusal State} (hp : s.ph = .s6) (he : s.em = e)
    (h : ∃ t, body s = .ok t) : ∃ t, emitStep e body s = .next t :=
  h.imp fun _ ht => emitStep_eq_next.mpr ⟨⟨hp, he⟩, ht⟩

/-- R225 of the agents' steps, from the invariant (obligation `EnabledStepsComplete`). -/
theorem exec_completes (hi : StateInv s) (hc : paramsOk s.cfg = true) (hn : s.cfg.numeric = .exact)
    (ha : (agentOf i).isSome = true) (he : enabled i s = true) : ∃ t, exec i s = .next t := by
  obtain ⟨hphase, hsub, hisr, hclock⟩ := enabled_iff.mp he
  cases i
  case reset | envEdge | envRx => exact ⟨_, rfl⟩
  case qaRise | qbEdge | pwRise | pwFall | leTick | liIndex => exact takeInterrupt_completes _ (hisr _ rfl)
  case envMs n => exact (clockStep_completes _ (hclock n (.inl rfl)) : ∃ t, execEnvMs n s = .next t)
  case envUs n => exact (clockStep_completes _ (hclock n (.inr rfl)) : ∃ t, execEnvUs n s = .next t)
  case s1Sample y => exact phaseStep_completes (hphase _ rfl) (s1Sample_completes hi hn (hphase _ rfl) y)
  case s2Serial => exact phaseStep_completes (hphase _ rfl) (s2Serial_completes hi hn (hphase _ rfl))
  case s3Control => exact phaseStep_completes (hphase _ rfl) (s3Control_completes hi hn (hphase _ rfl))
  case s4Range rdy d => exact phaseStep_completes (hphase _ rfl) (s4Range_completes rdy d s)
  case s6Emit => exact emitStep_completes (hphase _ rfl) (hsub _ rfl) (s6Emit_completes hi hn (hphase _ rfl))
  case emOdo => exact emitStep_completes (hphase _ rfl) (hsub _ rfl) ⟨_, rfl⟩
  case emSend =>
    exact emitStep_completes (hphase _ rfl) (hsub _ rfl) (emSend_completes hi (hphase _ rfl) (hsub _ rfl))
  case st3 => exact phaseStep_completes (hphase _ rfl) (st3_completes hc hn)
  case st5 r => exact phaseStep_completes (hphase _ rfl) (st5_completes r s)
  case st7 => exact phaseStep_completes (hphase _ rfl) (st7_completes hn)
  case st8 y => exact phaseStep_completes (hphase _ rfl) (st8_completes hn y)
  case s5Orient | st1 | st2 | st4 | st6 | st9 | st10 => exact phaseStep_completes (hphase _ rfl) ⟨_, rfl⟩
  case smSeed | smUpdate | pidInit | pidUpdate | pidSetpid | pidSetpoint => cases ha
  case cmdKpUp | cmdKpDn | cmdKiUp | cmdKiDn | cmdKdUp | cmdKdDn | cmdDigit | cmdCommit | cmdStatus => cases ha

/-- With no trace line left a step completes, whichever operation the schedule chooses, and leaves no trace line. -/
theorem step_free_completes (hi : StateInv s) (hc : paramsOk s.cfg = true) (hn : s.cfg.numeric = .exact)
    (ht : s.trace = []) : ∃ t, step s = .next t ∧ t.cfg = s.cfg ∧ t.trace = [] := by
  obtain ⟨ha, -, he, -⟩ := offered_iff.mp (chosen_offered s)
  let s1 : State := { s with choices := s.choices + 1 }
  have hi1 : StateInv s1 := hi.set_trace_choices s.trace (s.choices + 1)
  have he1 : enabled (chosen s) s1 = true := enabled_iff.mpr (enabled_iff.mp he)
  obtain ⟨t, hexec⟩ := exec_completes hi1 hc hn ha he1
  have hkeep := exec_keepsParameters hexec
  exact ⟨t, (step_free hc ht).trans hexec, hkeep.cfg, hkeep.trace.trans ht⟩

end Sys2Proof.Machine
end

section
/-! PROOFS. The statements of 00_scope.md: the free step (R9), the configuration (R6, R7), the run without an end. -/

namespace Sys2Proof.Proofs

open Sys2Proof Sys2Proof.Machine

/-- Settles O5: the step chosen where no trace fixes it is offered, whichever it is. -/
theorem freeStepIsOffered : Obligations.FreeStepIsOffered := by
  intro s hc ht
  obtain ⟨ha, hw, he, hp⟩ := offered_iff.mp (chosen_offered s)
  exact ⟨chosen s, ha, hw, he, hp, step_free hc ht⟩

/-- Settles O7: `bad_config` is raised by the check of R7, and no operation raises it. -/
theorem badConfigRefused : Obligations.BadConfigRefused := by
  intro s
  rw [step_badConfig_iff, ← Bool.not_eq_true, paramsOk_iff]
  simp only [not_and_or, not_lt, not_le, Nat.le_zero]

/-- Settles O55: case by case over what an operation can do; a step is an operation on a state with the same
configuration. -/
theorem parametersNeverChange : Obligations.ParametersNeverChange := by
  refine ⟨fun s t h => ?_, fun i s t h => ?_⟩
  · obtain ⟨i, tr, c, he⟩ := step_eq_next h
    exact (exec_keepsParameters he).cfg
  · obtain ⟨hcfg, htr, hch, hr⟩ := exec_keepsParameters h
    exact ⟨hcfg, htr, hch, hr⟩

/-- Settles O53, by induction on the number of steps: a free step completes and keeps every premise. -/
theorem freeRunNeverStops : Obligations.FreeRunNeverStops := by
  intro n
  induction n with
  | zero => exact fun s _ _ _ _ => ⟨s, rfl⟩
  | succ n ih =>
    intro s hi hc hn ht
    obtain ⟨t, hstep, hcfg, htrace⟩ := step_free_completes hi hc hn ht
    rw [core_run_succ, hstep]
    exact ih t (step_keeps_inv hi hstep) (hcfg ▸ hc) (hcfg ▸ hn) htrace

end Sys2Proof.Proofs
end

section
/-! PROOFS. Which context writes what (10_state.md R49): the fields a handler, the foreground and the environment may
write, and that every operation stays within those of its context. -/

namespace Sys2Proof.Machine

variable {i : Instr} {k : Source} {s t : State}

/-- From `s` to `t` no field is written but those R49 lists for handler `k`. -/
structure HandlerWrites (k : Source) (s t : State) : Prop where
  frame : t = { s with
    pos := t.pos, prevB := t.prevB, riseUs := t.riseUs, widthUs := t.widthUs, usClock := t.usClock,
    tickCount := t.tickCount, lastFullRevCount := t.lastFullRevCount, led := t.led, pend := t.pend,
    faulted := t.faulted }
  pos : t.pos ≠ s.pos → k = .qaRise
  led : t.led ≠ s.led → k = .qaRise
  prevB : t.prevB ≠ s.prevB → k = .qbEdge
  riseUs : t.riseUs ≠ s.riseUs → k = .pwRise
  widthUs : t.widthUs ≠ s.widthUs → k = .pwFall
  usClock : t.usClock ≠ s.usClock → k = .pwFall
  tickCount : t.tickCount ≠ s.tickCount → k = .leTick ∨ k = .liIndex
  lastFullRevCount : t.lastFullRevCount ≠ s.lastFullRevCount → k = .liIndex

/-- From `s` to `t` no field is written that R49 keeps from the foreground's operation `i`. -/
structure ForegroundWrites (i : Instr) (s t : State) : Prop where
  pos : t.pos = s.pos
  riseUs : t.riseUs = s.riseUs
  widthUs : t.widthUs = s.widthUs
  usClock : t.usClock = s.usClock
  tickCount : t.tickCount = s.tickCount
  lastFullRevCount : t.lastFullRevCount = s.lastFullRevCount
  pend : t.pend = s.pend
  msClock : t.msClock = s.msClock
  lvl : t.lvl = s.lvl
  faulted : t.faulted = s.faulted
  prevB : t.prevB ≠ s.prevB → phaseOf i = some .st9
  led : t.led ≠ s.led → phaseOf i = some .st5
  en : t.en ≠ s.en → i = .st10
  clkRun : t.clkRun ≠ s.clkRun → i = .st2

/-- From `s` to `t` no field is written but those R49 lists for the environment. -/
def EnvironmentWrites (s t : State) : Prop :=
  t = { s with lvl := t.lvl, pend := t.pend, msClock := t.msClock, usClock := t.usClock, rxFifo := t.rxFifo }

/-- Operation `i` takes `s` to `t` within the permissions of its context. RESET writes every field. -/
inductive PermittedWrites (i : Instr) (s t : State) : Prop where
  | reset (ha : agentOf i = some .rst)
  | handler (k : Source) (ha : agentOf i = some (.isr k)) (hw : HandlerWrites k s t)
  | foreground (ha : agentOf i = some .fg ∨ agentOf i = none) (hw : ForegroundWrites i s t)
  | environment (ha : agentOf i = some .env) (hw : EnvironmentWrites s t)

/-- Taking the interrupt writes the pending bits alone; each body adds its own fields to this. -/
theorem handlerWrites_clearPend (k : Source) (s : State) : HandlerWrites k s (writePend k false s) where
  frame := rfl
  pos h := absurd rfl h
  led h := absurd rfl h
  prevB h := absurd rfl h
  riseUs h := absurd rfl h
  widthUs h := absurd rfl h
  usClock h := absurd rfl h
  tickCount h := absurd rfl h
  lastFullRevCount h := absurd rfl h

/-- A state that is left as it is; the foreground's operations add the fields they may write. -/
theorem foregroundWrites_refl (i : Instr) (s : State) : ForegroundWrites i s s where
  pos := rfl
  riseUs := rfl
  widthUs := rfl
  usClock := rfl
  tickCount := rfl
  lastFullRevCount := rfl
  pend := rfl
  msClock := rfl
  lvl := rfl
  faulted := rfl
  prevB h := absurd rfl h
  led h := absurd rfl h
  en h := absurd rfl h
  clkRun h := absurd rfl h

/-- A command writes no field kept from the foreground, whichever operation performs it. -/
theorem performCommand_foregroundWrites {c : Command} (i : Instr) (h : performCommand c s = .ok t) :
    ForegroundWrites i s t := by
  obtain ⟨hf, -⟩ := performCommand_frame h
  rw [hf]
  exact { foregroundWrites_refl i s with }

theorem exec_permittedWrites (h : exec i s = .next t) : PermittedWrites i s t := by
  apply exec_cases h (fun i t => PermittedWrites i s t)
  case reset => exact fun _ _ => .reset rfl
  case qaRise =>
    intro _
    rw [qaRiseBody_frame]
    exact .handler .qaRise rfl
      { handlerWrites_clearPend .qaRise s with frame := rfl, pos := fun _ => rfl, led := fun _ => rfl }
  case qbEdge =>
    exact fun _ => .handler .qbEdge rfl
      { handlerWrites_clearPend .qbEdge s with frame := rfl, prevB := fun _ => rfl }
  case pwRise =>
    exact fun _ => .handler .pwRise rfl
      { handlerWrites_clearPend .pwRise s with frame := rfl, riseUs := fun _ => rfl }
  case pwFall =>
    exact fun _ => .handler .pwFall rfl
      { handlerWrites_clearPend .pwFall s with frame := rfl, widthUs := fun _ => rfl, usClock := fun _ => rfl }
  case leTick =>
    exact fun _ => .handler .leTick rfl
      { handlerWrites_clearPend .leTick s with frame := rfl, tickCount := fun _ => .inl rfl }
  case liIndex =>
    exact fun _ => .handler .liIndex rfl
      { handlerWrites_clearPend .liIndex s with
        frame := rfl, tickCount := fun _ => .inr rfl, lastFullRevCount := fun _ => rfl }
  case st2 => exact fun _ => .foreground (.inl rfl) { foregroundWrites_refl .st2 s with clkRun := fun _ => rfl }
  case st5b => exact fun _ => .foreground (.inl rfl) { foregroundWrites_refl (.st5 false) s with led := fun _ => rfl }
  case st9 => exact fun _ b => .foreground (.inl rfl) { foregroundWrites_refl (.st9 b) s with prevB := fun _ => rfl }
  case st10 => exact fun _ => .foreground (.inl rfl) { foregroundWrites_refl .st10 s with en := fun _ => rfl }
  case s2b =>
    intro _ b rest u _ hu
    exact .foreground (.inl rfl) { performCommand_foregroundWrites .s2Serial hu with }
  case cmd =>
    exact fun c hc => .foreground (.inr (agentOf_instrOfCommand c)) (performCommand_foregroundWrites _ hc)
  case smSeed | smUpdate | pidInit | pidUpdate | pidSetpid | pidSetpoint =>
    intros
    exact .foreground (.inr rfl) { foregroundWrites_refl _ s with }
  case s1 | s2a | s3 | s4 | s5 | s6a | s6b | emOdo | emSend | st1 | st3 | st4 | st5a | st6 | st7 | st8 =>
    intros
    exact .foreground (.inl rfl) { foregroundWrites_refl _ s with }
  case envEdge =>
    intro l ht _
    rw [ht]
    exact .environment rfl rfl
  case envRx | envMs | envUs => intros; exact .environment rfl rfl

end Sys2Proof.Machine
end

section
/-! PROOFS. The statements of 10_state.md: the invariant of every step, and who writes what (R49). -/

namespace Sys2Proof.Proofs

open Sys2Proof Sys2Proof.Machine

/-- Settles O50: each operation keeps the invariant, one lemma for each kind of phase change and of write. -/
theorem stepKeepsInv : Obligations.StepKeepsInv := fun _ _ => step_keeps_inv

/-- Settles O54: each operation is one of RESET, a handler's, the foreground's or the environment's, and stays within
the fields of that context. -/
theorem writePermissions : Obligations.WritePermissions := by
  intro i s t h
  cases exec_permittedWrites h with
  | reset ha => simp [ha]
  | handler k ha hw =>
    refine ⟨fun j hj => ?_, by simp [ha], by simp [ha]⟩
    obtain rfl : k = j := by simpa [ha] using hj
    exact ⟨hw.frame, hw.pos, hw.led, hw.prevB, hw.riseUs, hw.widthUs, hw.usClock, hw.tickCount, hw.lastFullRevCount⟩
  | foreground ha hw =>
    refine ⟨?_, fun _ => ?_, ?_⟩
    · obtain ha | ha := ha <;> simp [ha]
    · exact ⟨hw.pos, hw.riseUs, hw.widthUs, hw.usClock, hw.tickCount, hw.lastFullRevCount, hw.pend, hw.msClock, hw.lvl,
        hw.faulted, hw.prevB, hw.led, hw.en, hw.clkRun⟩
    · obtain ha | ha := ha <;> simp [ha]
  | environment ha hw => exact ⟨by simp [ha], by simp [ha], fun _ => hw⟩

end Sys2Proof.Proofs
end

section
/-! PROOFS. The steering channel's duty (20_memory.md R64): what each operation writes to it, and that it stays within
the output bounds. -/

namespace Sys2Proof.Machine

variable {i : Instr} {s t : State}

/-- The duty on the steering channel from `s` to `t`: left, undriven by RESET, or an output clamped to the bounds, which
S3 alone writes. -/
inductive SteerDutyWrite (i : Instr) (s t : State) : Prop where
  | kept (hd : t.steerDuty = s.steerDuty)
  | undriven (ha : agentOf i = some .rst) (hd : t.steerDuty = none)
  | driven (hs3 : i = .s3Control) (u lo hi : NumV) (hlo : s.minOut = some lo) (hhi : s.maxOut = some hi)
      (hd : t.steerDuty = some (clamp u lo hi))

theorem performCommand_steerDuty {c : Command} (h : performCommand c s = .ok t) : t.steerDuty = s.steerDuty := by
  obtain ⟨hf, -⟩ := performCommand_frame h
  rw [hf]

theorem exec_steerDuty (h : exec i s = .next t) : SteerDutyWrite i s t := by
  apply exec_cases h (fun i t => SteerDutyWrite i s t)
  case reset => exact fun _ _ => .undriven rfl rfl
  case s3 => exact fun _ _ u _ lo hi hlo hhi => .driven rfl u lo hi hlo hhi rfl
  case qaRise => exact fun _ => .kept (by rw [qaRiseBody_frame]; rfl)
  case s2b =>
    intro _ _ _ _ _ hu
    have hd := performCommand_steerDuty hu
    exact .kept hd
  case cmd => exact fun _ hc => .kept (performCommand_steerDuty hc)
  case envEdge => exact fun _ ht _ => .kept (by rw [ht])
  all_goals intros; exact .kept rfl

end Sys2Proof.Machine

namespace Sys2Proof.Proofs

open Sys2Proof Sys2Proof.Machine

/-- Settles O57: S3 drives an output clamped to the bounds, and every other operation leaves the duty or undrives it. -/
theorem steeringDutyInRange : Obligations.SteeringDutyInRange := by
  intro i s t hmin hmax h hrange d htd
  cases exec_steerDuty h with
  | kept hd => exact hrange d (hd ▸ htd)
  | undriven _ hd => cases hd.symm.trans htd
  | driven _ u lo hi hlo hhi hd =>
    obtain rfl : (0 : NumV) = lo := Option.some.inj (hmin.symm.trans hlo)
    obtain rfl : (1 : NumV) = hi := Option.some.inj (hmax.symm.trans hhi)
    obtain rfl : clamp u 0 1 = d := Option.some.inj (hd.symm.trans htd)
    exact clamp_bounds u zero_le_one

end Sys2Proof.Proofs
end

section
/-! PROOFS. The encoding (30_encoding.md): each operand reader takes back the bytes its writer wrote and leaves what
follows them, so that a trace line gives back the instruction it was written for; which words and which command bytes
name which operation. -/

namespace Sys2Proof.Codec

/-! ### Operand readers take back what the writers wrote -/

@[simp] theorem readBit_bitBytes (b : Bit) (r : List Byte) : readBit (bitBytes b ++ r) = (some b, r) := by
  cases b <;> rfl

@[simp] theorem readOptBit_optBitBytes (b : Option Bit) (r : List Byte) : readOptBit (optBitBytes b ++ r) = (b, r) := by
  rcases b with _ | _ | _ <;> rfl

@[simp] theorem readCode_codeBytes (c : Code) (r : List Byte) : readCode (codeBytes c ++ r) = (some c, r) := by
  have hc : c.toNat % 256 < 4 := by omega
  simp [readCode, codeBytes, hc]

@[simp] theorem readHalf_halfBytes (h : Half) (r : List Byte) : readHalf (halfBytes h ++ r) = (some h, r) := by
  have hh := h.isLt
  have hv : BitVec.ofNat 16 ((h.extractLsb' 0 8).toNat + 256 * (h.extractLsb' 8 8).toNat) = h := by
    apply BitVec.eq_of_toNat_eq
    simp only [BitVec.toNat_ofNat, BitVec.extractLsb'_toNat, Nat.shiftRight_eq_div_pow]
    omega
  exact congrArg (fun v => (some v, r)) hv

theorem readWord_wordBytes (w : Word) (r : List Byte) : readWord (wordBytes w ++ r) = (some w, r) := by
  have hw := w.isLt
  have hv : BitVec.ofNat 32 ((w.extractLsb' 0 8).toNat + 256 * (w.extractLsb' 8 8).toNat
      + 65536 * (w.extractLsb' 16 8).toNat + 16777216 * (w.extractLsb' 24 8).toNat) = w := by
    apply BitVec.eq_of_toNat_eq
    simp only [BitVec.toNat_ofNat, BitVec.extractLsb'_toNat, Nat.shiftRight_eq_div_pow]
    omega
  exact congrArg (fun v => (some v, r)) hv

@[simp] theorem readOptWord_optWordBytes (w : Option Word) (r : List Byte) :
    readOptWord (optWordBytes w ++ r) = (w, r) := by
  cases w with
  | none => rfl
  | some w => simpa [readOptWord, optWordBytes] using readWord_wordBytes w r

@[simp] theorem readLine_lineByte (l : Line) (r : List Byte) : readLine (lineByte l :: r) = (some l, r) := by
  cases l <;> rfl

/-- A last group below 128 ends a number. -/
theorem readNat_lastGroup {n : Nat} (h : n < 128) (r : List Byte) : readNat (BitVec.ofNat 8 n :: r) = (some n, r) := by
  have hn : (BitVec.ofNat 8 n).toNat = n := by simp; omega
  simp [readNat, hn, h]

/-- A group with bit 7 set is followed by the groups above it. -/
theorem readNat_moreGroups (n : Nat) {h : Nat} {bs r : List Byte} (hr : readNat bs = (some h, r)) :
    readNat (BitVec.ofNat 8 (n % 128 + 128) :: bs) = (some (n % 128 + 128 * h), r) := by
  have hb : (BitVec.ofNat 8 (n % 128 + 128)).toNat = n % 128 + 128 := by simp; omega
  simp [readNat, hb, hr]

/-- Enough groups for `n` hold all of it. -/
theorem readNat_natGroups (fuel n : Nat) (h : n < 128 ^ (fuel + 1)) (r : List Byte) :
    readNat (natGroups fuel n ++ r) = (some n, r) := by
  induction fuel generalizing n with
  | zero =>
    rw [natGroups, Nat.mod_eq_of_lt (by simpa using h)]
    exact readNat_lastGroup (by simpa using h) r
  | succ fuel ih =>
    rw [natGroups]
    split
    · exact readNat_lastGroup ‹_› r
    · have hhi := ih (n / 128) (Nat.div_lt_of_lt_mul (by rwa [pow_succ'] at h))
      rw [List.cons_append, readNat_moreGroups n hhi, Nat.mod_add_div]

@[simp] theorem readNat_natBytes (n : Nat) (r : List Byte) : readNat (natBytes n ++ r) = (some n, r) := by
  refine readNat_natGroups _ n (Nat.lt_log2_self.trans_le ?_) r
  exact Nat.pow_le_pow_left (by decide) _

theorem intOfNat_natOfInt (z : Int) : intOfNat (natOfInt z) = z := by
  unfold intOfNat natOfInt
  split <;> split <;> omega

@[simp] theorem readNum_numBytes (q : NumV) (r : List Byte) : readNum (numBytes q ++ r) = (some q, r) := by
  have hden : q.den - 1 + 1 = q.den := Nat.succ_pred q.den_ne_zero
  simp [readNum, numBytes, intOfNat_natOfInt, hden, Rat.mkRat_self]

@[simp] theorem readLevels_levelBytes (l : LevelDraws) (r : List Byte) : readLevels (levelBytes l ++ r) = (l, r) := by
  simp [readLevels, levelBytes]

@[simp] theorem orOpen_some {α : Type} (free x : α) (r : List Byte) : orOpen free (some x, r) = (x, r) := rfl

@[simp] theorem readCal_calBytes (w : List Byte) (c : Cal) (r : List Byte) : readCal w (calBytes c ++ r) = (c, r) := by
  simp [readCal, calBytes]

@[simp] theorem readQuat_quatBytes (w : List Byte) (q : Quat) (r : List Byte) :
    readQuat w (quatBytes q ++ r) = (q, r) := by
  simp [readQuat, quatBytes]

/-! ### The last operand of a word, with no byte after it -/

@[simp] theorem readBit_bitBytes_last (b : Bit) : readBit (bitBytes b) = (some b, []) := by
  simpa using readBit_bitBytes b []

@[simp] theorem readNat_natBytes_last (n : Nat) : readNat (natBytes n) = (some n, []) := by
  simpa using readNat_natBytes n []

@[simp] theorem readNum_numBytes_last (q : NumV) : readNum (numBytes q) = (some q, []) := by
  simpa using readNum_numBytes q []

@[simp] theorem readLevels_levelBytes_last (l : LevelDraws) : readLevels (levelBytes l) = (l, []) := by
  simpa using readLevels_levelBytes l []

@[simp] theorem readOptWord_optWordBytes_last (w : Option Word) : readOptWord (optWordBytes w) = (w, []) := by
  simpa using readOptWord_optWordBytes w []

@[simp] theorem readQuat_quatBytes_last (w : List Byte) (q : Quat) : readQuat w (quatBytes q) = (q, []) := by
  simpa using readQuat_quatBytes w q []

@[simp] theorem readThree_numBytes (w : List Byte) (a b c : NumV) :
    readThree w (numBytes a ++ (numBytes b ++ numBytes c)) = (a, b, c) := by
  simp [readThree]

/-! ### Lines -/

/-- A line written for an instruction gives it back: a command byte by 30:R84, a trace word operand by operand. -/
theorem decode_encode (i : Instr) : decode (encode i) = .ok i := by
  cases i
  case cmdKpUp => exact congrArg Except.ok Laws.LeadingByte.cmdKpUp
  case cmdKpDn => exact congrArg Except.ok Laws.LeadingByte.cmdKpDn
  case cmdKiUp => exact congrArg Except.ok Laws.LeadingByte.cmdKiUp
  case cmdKiDn => exact congrArg Except.ok Laws.LeadingByte.cmdKiDn
  case cmdKdUp => exact congrArg Except.ok Laws.LeadingByte.cmdKdUp
  case cmdKdDn => exact congrArg Except.ok Laws.LeadingByte.cmdKdDn
  case cmdDigit d => exact congrArg Except.ok (Laws.LeadingByte.cmdDigit d)
  case cmdCommit => exact congrArg Except.ok Laws.LeadingByte.cmdCommit
  case cmdStatus => exact congrArg Except.ok Laws.LeadingByte.cmdStatus
  case reset | smSeed | smUpdate | pidInit | pidUpdate | pidSetpid | pidSetpoint | s1Sample | s4Range | s5Orient | st5
      | st8 | st9 | envEdge | envMs | envUs =>
    simp [encode, decode, decodeOperands]
  all_goals rfl

/-- Every instruction is written as `LeadingByte.Statement` says. -/
theorem leadingByte (i : Instr) : Laws.LeadingByte.Statement i := by
  cases i
  case cmdDigit d => exact Laws.LeadingByte.cmdDigit d
  all_goals rfl

/-- An instruction with the identifier `id` is written as a word that begins with `id`. -/
theorem encode_of_traceId {i : Instr} {id : Byte} (h : Laws.LeadingByte.traceIdOf i = some id.toNat) :
    ∃ operands, encode i = .word (id :: operands) := by
  have hs := leadingByte i
  unfold Laws.LeadingByte.Statement at hs
  rw [h] at hs
  split at hs
  · rename_i b operands hn he
    obtain rfl : b = id := BitVec.eq_of_toNat_eq (hs.trans (Option.some.inj hn).symm)
    exact ⟨operands, he⟩
  · rename_i hn _
    cases hn
  · exact hs.elim

/-- The identifiers that R89 leaves out. -/
theorem isTraceId_eq_false_iff (id : Byte) :
    isTraceId id = false ↔
      (0x06 < id.toNat ∧ id.toNat < 0x10) ∨ (0x11 < id.toNat ∧ id.toNat < 0x20) ∨
        (0x23 < id.toNat ∧ id.toNat < 0x30) ∨ (0x37 < id.toNat ∧ id.toNat < 0x40) ∨
        (0x49 < id.toNat ∧ id.toNat < 0x50) ∨ 0x53 < id.toNat := by
  simp only [isTraceId, Bool.or_eq_false_iff, decide_eq_false_iff_not]
  omega

/-- A word decodes exactly where its identifier is one of R89, and then to an instruction with that identifier (R86). -/
theorem decodeOperands_cases (id : Byte) (r : List Byte) :
    (isTraceId id = true ∧ ∃ i, decodeOperands id r = .ok i ∧ Laws.LeadingByte.traceIdOf i = some id.toNat) ∨
      (isTraceId id = false ∧ decodeOperands id r = .error (.unknownId id)) := by
  unfold decodeOperands
  split
  case h_36 =>
    refine .inr ⟨(isTraceId_eq_false_iff id).mpr ?_, rfl⟩
    simp only [imp_false] at *
    omega
  all_goals
    rename_i hid
    exact .inl ⟨by simp [isTraceId, hid], _, rfl, congrArg some hid.symm⟩

/-! ### The command byte (30:R84) -/

/-- The rows of R84's table; its default row is what the others leave. -/
def SelectedBy (b : Byte) : Command → Prop
  | .kpUp => b = 0x70#8
  | .kpDn => b = 0x6C#8
  | .kiUp => b = 0x69#8
  | .kiDn => b = 0x6B#8
  | .kdUp => b = 0x64#8
  | .kdDn => b = 0x63#8
  | .digit d => b.toNat = 0x30 + d.val
  | .commit => b = 0x0A#8 ∨ b = 0x0D#8
  | .status => True

/-- The command of a byte is one whose row the byte is in. -/
theorem selectedBy_decodeCommand (b : Byte) : SelectedBy b (decodeCommand b) := by
  unfold decodeCommand
  split_ifs with hd hp hl hi hk hdn hc hcr
  · have hv : (digitOf b).val = b.toNat - 0x30 := Nat.mod_eq_of_lt (by omega)
    show b.toNat = 0x30 + (digitOf b).val
    omega
  · exact hp
  · exact hl
  · exact hi
  · exact hk
  · exact hdn
  · exact hc
  · exact hcr.symm
  · trivial

/-- A byte in the row of a command other than the default one selects it: the rows are disjoint. -/
theorem decodeCommand_of_selectedBy {b : Byte} {c : Command} (hc : c ≠ .status) (h : SelectedBy b c) :
    decodeCommand b = c := by
  cases c
  case status => exact absurd rfl hc
  case digit d =>
    have hb : b.toNat = 0x30 + d.val := h
    have hd : digitOf b = d := Fin.ext (by simp [digitOf, hb])
    rw [decodeCommand, if_pos (by omega), hd]
  case commit => rcases h with rfl | rfl <;> rfl
  all_goals
    obtain rfl := h
    rfl

theorem decodeCommand_eq_iff (b : Byte) {c : Command} (hc : c ≠ .status) : decodeCommand b = c ↔ SelectedBy b c :=
  ⟨fun h => h ▸ selectedBy_decodeCommand b, decodeCommand_of_selectedBy hc⟩

end Sys2Proof.Codec
end

section
/-! PROOFS. A trace runs as it is written (30:R87), and an operation is refused exactly where it is not
enabled (30:R81). -/

namespace Sys2Proof.Machine

variable {i : Instr} {s : State}

/-! ### The next line of a trace -/

theorem fetch_line {l : TraceLine} {rest : List TraceLine} (hc : paramsOk s.cfg = true) (ht : s.trace = l :: rest)
    (hd : decode l = .ok i) : fetch s = .ok (i, { s with trace := rest }) := by
  simp [fetch, hc, ht, hd]

theorem step_line {l : TraceLine} {rest : List TraceLine} (hc : paramsOk s.cfg = true) (ht : s.trace = l :: rest)
    (hd : decode l = .ok i) : step s = exec i { s with trace := rest } :=
  step_of_fetch (fetch_line hc ht hd)

/-- The step that runs a written instruction is the instruction, which passes the trace by. -/
theorem step_encode (hc : paramsOk s.cfg = true) (i : Instr) (rest : List TraceLine) :
    step (withTrace (encode i :: rest) s) = traceO rest (exec i s) :=
  (step_line (s := withTrace (encode i :: rest) s) hc rfl (Codec.decode_encode i)).trans (exec_withTrace rest i s)

/-- The host's run of written instructions is the instructions in order. -/
theorem core_run_encode (is : List Instr) (rest : List TraceLine) (hc : paramsOk s.cfg = true) :
    Host.Core.run core is.length (withTrace (is.map encode ++ rest) s) = run is (withTrace rest s) := by
  induction is generalizing s with
  | nil => rfl
  | cons i is ih =>
    rw [List.length_cons, core_run_succ, List.map_cons, List.cons_append, step_encode hc, run, exec_withTrace]
    cases he : exec i s with
    | next t => exact ih ((exec_keepsParameters he).cfg.symm ▸ hc)
    | fault r => rfl
    | refused r => rfl

/-! ### Where an operation has no step -/

/-- `o` is the refusal `notEnabled` exactly where the guard `g` fails. -/
def RefusedUnless (g : Bool) (o : Out) : Prop := o = .refused .notEnabled ↔ g = false

/-- An operation that always has a step. -/
theorem refusedUnless_next (t : State) : RefusedUnless true (.next t) := ⟨nofun, nofun⟩

/-- A body is not refused as not enabled. -/
theorem refusedUnless_finish {x : Except Refusal State} (h : BodyRefuses x) : RefusedUnless true (finish x) :=
  ⟨fun hx => (Bool.false_ne_true (h _ (finish_eq_refused.mp hx))).elim, nofun⟩

/-- A guard in front of an outcome that is no such refusal. -/
theorem refusedUnless_ite {p : Prop} [Decidable p] {g : Bool} {o : Out} (hg : g = true ↔ p)
    (h : RefusedUnless true o) : RefusedUnless g (if p then o else .refused .notEnabled) := by
  split
  · rwa [hg.mpr ‹p›]
  · exact iff_of_true rfl (Bool.eq_false_iff.mpr (mt hg.mp ‹¬p›))

theorem refusedUnless_takeInterrupt (k : Source) (body : State → State) (s : State) :
    RefusedUnless (handlerEnabled k s) (takeInterrupt k body s) :=
  refusedUnless_ite Iff.rfl (refusedUnless_next _)

theorem refusedUnless_clockStep (body : State → State) (s : State) : RefusedUnless s.clkRun (clockStep body s) :=
  refusedUnless_ite Iff.rfl (refusedUnless_next _)

theorem refusedUnless_phaseStep (p : Phase) {body : State → Except Refusal State} (h : BodyRefuses (body s)) :
    RefusedUnless (s.ph == p) (phaseStep p body s) :=
  refusedUnless_ite beq_iff_eq (refusedUnless_finish h)

theorem refusedUnless_emitStep (e : SubPhase) {body : State → Except Refusal State} (h : BodyRefuses (body s)) :
    RefusedUnless (s.ph == .s6 && s.em == e) (emitStep e body s) :=
  refusedUnless_ite (by simp) (refusedUnless_finish h)

theorem refusedUnless_command (c : Command) (s : State) : RefusedUnless true (exec (instrOfCommand c) s) := by
  rw [exec_command]
  exact refusedUnless_finish (bodyRefuses_performCommand c s)

/-- `exec` tests the selection that `enabled` names, and no body raises `notEnabled`. -/
theorem exec_refusedUnless_enabled (i : Instr) (s : State) : RefusedUnless (enabled i s) (exec i s) := by
  cases i <;> simp only [enabled, phaseOf, subPhaseOf, agentOf, Bool.and_true, Bool.true_and]
  case reset | envEdge | envRx => exact refusedUnless_next _
  case qaRise | qbEdge | pwRise | pwFall | leTick | liIndex => exact refusedUnless_takeInterrupt _ _ s
  case envMs n => exact (refusedUnless_clockStep _ s : RefusedUnless s.clkRun (execEnvMs n s))
  case envUs n => exact (refusedUnless_clockStep _ s : RefusedUnless s.clkRun (execEnvUs n s))
  case smSeed y => exact refusedUnless_finish (bodyRefuses_smSeed y s)
  case smUpdate y => exact refusedUnless_finish (bodyRefuses_smUpdate y s)
  case pidInit lo hi p => exact refusedUnless_finish (bodyRefuses_pidInit lo hi p s)
  case pidUpdate y => exact refusedUnless_finish (bodyRefuses_pidUpdate y s)
  case pidSetpid p i d => exact refusedUnless_finish (bodyRefuses_pidSetpid p i d s)
  case pidSetpoint v => exact refusedUnless_finish (bodyRefuses_pidSetpoint v s)
  case s1Sample => exact refusedUnless_phaseStep _ (by simp [s1Sample])
  case s2Serial => exact refusedUnless_phaseStep _ (bodyRefuses_s2Serial s)
  case s3Control => exact refusedUnless_phaseStep _ (by simp [s3Control])
  case s4Range rdy d => exact refusedUnless_phaseStep _ (bodyRefuses_s4Range rdy d s)
  case s6Emit => exact refusedUnless_emitStep _ (by simp [s6Emit])
  case emSend => exact refusedUnless_emitStep _ (by simp [emSend])
  case emOdo => exact refusedUnless_emitStep _ (bodyRefuses_ok _)
  case st3 => exact refusedUnless_phaseStep _ (by simp [st3])
  case st5 => exact refusedUnless_phaseStep _ (by simp [st5])
  case st7 => exact refusedUnless_phaseStep _ (by simp [st7])
  case st8 => exact refusedUnless_phaseStep _ (by simp [st8])
  case s5Orient | st1 | st2 | st4 | st6 | st9 | st10 => exact refusedUnless_phaseStep _ (bodyRefuses_ok _)
  case cmdKpUp => exact refusedUnless_command .kpUp s
  case cmdKpDn => exact refusedUnless_command .kpDn s
  case cmdKiUp => exact refusedUnless_command .kiUp s
  case cmdKiDn => exact refusedUnless_command .kiDn s
  case cmdKdUp => exact refusedUnless_command .kdUp s
  case cmdKdDn => exact refusedUnless_command .kdDn s
  case cmdDigit d => exact refusedUnless_command (.digit d) s
  case cmdCommit => exact refusedUnless_command .commit s
  case cmdStatus => exact refusedUnless_command .status s

end Sys2Proof.Machine
end

section
/-! PROOFS. The statements of 30_encoding.md: the two formats (R84, R88, R89), the trace (R87), the selection (R81). -/

namespace Sys2Proof.Proofs

open Sys2Proof Sys2Proof.Machine Sys2Proof.Codec

/-- Settles O1: each operand reader takes back what its writer wrote, in the order of the word. -/
theorem decodeEncodeAgree : Obligations.DecodeEncodeAgree := decode_encode

/-- Settles O2: a byte selects a command exactly where it is in the command's row, and the default row is counted. -/
theorem commandByteTable : Obligations.CommandByteTable := by
  refine ⟨fun b => ?_, by decide +kernel⟩
  exact ⟨decodeCommand_eq_iff b nofun, decodeCommand_eq_iff b nofun, decodeCommand_eq_iff b nofun,
    decodeCommand_eq_iff b nofun, decodeCommand_eq_iff b nofun, decodeCommand_eq_iff b nofun,
    fun d => decodeCommand_eq_iff b nofun, decodeCommand_eq_iff b nofun⟩

/-- Settles O3: the words written out are evaluated; any other word by whether its identifier is in R89. -/
theorem writtenWordsDecode : Obligations.WrittenWordsDecode := by
  refine ⟨rfl, rfl, rfl, rfl, rfl, rfl, rfl, rfl, fun id r => ?_⟩
  have hr89 := isTraceId_eq_false_iff id
  obtain ⟨hid, i, hd, ht⟩ | ⟨hid, hd⟩ := decodeOperands_cases id r
  · obtain ⟨operands, he⟩ := encode_of_traceId ht
    rw [if_neg (hr89.not.mp (by simp [hid]))]
    exact ⟨i, operands, hd, he⟩
  · rw [if_pos (hr89.mp hid)]
    exact hd

/-- Settles O4: `fetch` takes the line and gives its instruction. -/
theorem stepRunsTraceLine : Obligations.StepRunsTraceLine := fun _ _ _ _ => step_line

/-- Settles O6, by induction on the instructions: a line gives back its instruction (O1), which neither reads nor
writes the trace and keeps the configuration. -/
theorem traceRunsAsWritten : Obligations.TraceRunsAsWritten := fun is _ rest hc => core_run_encode is rest hc

/-- Settles O8: one guard per agent, and no body of an operation is refused as not enabled. -/
theorem refusedExactlyWhenNotEnabled : Obligations.RefusedExactlyWhenNotEnabled := exec_refusedUnless_enabled

end Sys2Proof.Proofs
end

section
/-! PROOFS. The quadrature decoder (40_quadrature_decoder.md): what an A-rise does to the position at and off its limits
(R100, R102), which operations write the position and the cached B level, and the position after a run (R103). -/

namespace Sys2Proof.Machine

variable {i : Instr} {is : List Instr} {s t : State}

/-! ### The count of one A-rise -/

/-- What an A-rise adds to the position, by the cached B level. -/
def riseDirection (prevB : Bit) : Int := if prevB then -1 else 1

theorem abs_add_riseDirection_le (z : Int) (b : Bit) : |z + riseDirection b| ≤ |z| + 1 :=
  (abs_add_le z _).trans_eq (by cases b <;> rfl)

theorem countPos_toInt (b : Bit) (p : Word) : (countPos b p).toInt = Int.bmod (p.toInt + riseDirection b) (2 ^ 32) := by
  cases b
  · exact BitVec.toInt_add p 1#32
  · exact BitVec.toInt_sub

theorem countAtLimit_iff (b : Bit) (p : Word) :
    countAtLimit b p = true ↔ (b = false ∧ p.toInt = 2 ^ 31 - 1) ∨ (b = true ∧ p.toInt = -2 ^ 31) := by
  have hmax : posMax.toInt = 2 ^ 31 - 1 := by decide
  have hmin : posMin.toInt = -2 ^ 31 := by decide
  cases b
  · simp [countAtLimit, ← BitVec.toInt_inj, hmax]
  · simp [countAtLimit, ← BitVec.toInt_inj, hmin]

/-- Off both limits a count moves the position by one, without a wrap. -/
theorem countPos_toInt_of_lt {p : Word} (b : Bit) (h : |p.toInt| + 1 < 2 ^ 31) :
    (countPos b p).toInt = p.toInt + riseDirection b := by
  obtain ⟨hlo, hhi⟩ := abs_lt.mp ((abs_add_riseDirection_le p.toInt b).trans_lt h)
  rw [countPos_toInt]
  exact Int.bmod_eq_of_le (by omega) (by omega)

theorem countAtLimit_of_lt {p : Word} (b : Bit) (h : |p.toInt| + 1 < 2 ^ 31) : countAtLimit b p = false := by
  obtain ⟨hlo, hhi⟩ := abs_lt.mp (lt_sub_iff_add_lt.mpr h)
  rw [Bool.eq_false_iff, ne_eq, countAtLimit_iff]
  omega

/-- A count past a limit with POS_OVERFLOW = fault. -/
theorem qaRiseBody_fault (hf : s.cfg.posOverflow = .fault) (hl : countAtLimit s.prevB s.pos = true) :
    qaRiseBody s = { s with faulted := true, led := !s.led } := by
  simp [qaRiseBody, countRise, hf, hl]

/-- Every other count. -/
theorem qaRiseBody_count (h : ¬(s.cfg.posOverflow = .fault ∧ countAtLimit s.prevB s.pos = true)) :
    qaRiseBody s = { s with pos := countPos s.prevB s.pos, led := !s.led } := by
  have hc : (countAtLimit s.prevB s.pos && s.cfg.posOverflow == .fault) = false := by
    simpa using fun hl hf => h ⟨hf, hl⟩
  simp [qaRiseBody, countRise, hc]

/-! ### A pending enabled request is taken -/

theorem takeInterrupt_of_pending (k : Source) (body : State → State) (hp : getSource s.pend k = true)
    (he : getSource s.en k = true) : takeInterrupt k body s = .next (body (writePend k false s)) :=
  takeInterrupt_eq_next.mpr ⟨by simp [handlerEnabled, hp, he], rfl⟩

/-! ### Who writes the position and the cached B level -/

/-- A handler's step is the operation bound to its source (R215). -/
theorem eq_handlerOf_of_agentOf {k : Source} (h : agentOf i = some (.isr k)) : i = handlerOf k := by
  cases i <;> cases h <;> rfl

theorem exec_keeps_pos (h : exec i s = .next t) (hrst : agentOf i ≠ some .rst) (hi : i ≠ .qaRise) :
    t.pos = s.pos := by
  cases exec_permittedWrites h with
  | reset ha => exact absurd ha hrst
  | handler k ha hw =>
    by_contra hpos
    obtain rfl := hw.pos hpos
    exact hi (eq_handlerOf_of_agentOf ha)
  | foreground _ hw => exact hw.pos
  | environment _ hw => rw [hw]

theorem exec_keeps_prevB (h : exec i s = .next t) (hrst : agentOf i ≠ some .rst) (hi : i ≠ .qbEdge)
    (h9 : phaseOf i ≠ some .st9) : t.prevB = s.prevB := by
  cases exec_permittedWrites h with
  | reset ha => exact absurd ha hrst
  | handler k ha hw =>
    by_contra hb
    obtain rfl := hw.prevB hb
    exact hi (eq_handlerOf_of_agentOf ha)
  | foreground _ hw => exact not_imp_comm.mp hw.prevB h9
  | environment _ hw => rw [hw]

/-! ### The position after a run -/

theorem run_cons_eq_next : run (i :: is) s = .next t ↔ ∃ u, exec i s = .next u ∧ run is u = .next t := by
  rw [run]
  cases exec i s <;> simp

theorem riseBalance_qaRise (h : exec .qaRise s = .next t) :
    riseBalance (.qaRise :: is) s = riseDirection s.prevB + riseBalance is t := by
  simp [riseBalance, riseDirection, h]

theorem riseBalance_of_ne (h : exec i s = .next t) (hi : i ≠ .qaRise) :
    riseBalance (i :: is) s = riseBalance is t := by
  simp [riseBalance, h, hi]

/-- An A-rise off both limits, whatever POS_OVERFLOW is. -/
theorem exec_qaRise_pos (h : exec .qaRise s = .next t) (hs : |s.pos.toInt| + 1 < 2 ^ 31) :
    t.pos.toInt = s.pos.toInt + riseDirection s.prevB := by
  obtain ⟨-, rfl⟩ := exec_qaRise h
  rw [qaRiseBody_count (by simp [countAtLimit_of_lt _ hs])]
  exact countPos_toInt_of_lt s.prevB hs

/-- Each rise moves the position by one from a start that leaves room for all of them, so no rise of the run stands at
a limit. -/
theorem run_pos (hrst : ∀ i ∈ is, agentOf i ≠ some .rst) (hroom : |s.pos.toInt| + is.count .qaRise < 2 ^ 31)
    (h : run is s = .next t) : t.pos.toInt = s.pos.toInt + riseBalance is s := by
  induction is generalizing s with
  | nil =>
    obtain rfl := Host.Outcome.next.inj h
    exact (add_zero _).symm
  | cons i is ih =>
    obtain ⟨u, hu, hrun⟩ := run_cons_eq_next.mp h
    obtain ⟨hi, his⟩ := List.forall_mem_cons.mp hrst
    by_cases hq : i = .qaRise
    · subst hq
      rw [List.count_cons_self] at hroom
      have hpos := exec_qaRise_pos hu (by omega)
      have hstep := abs_add_riseDirection_le s.pos.toInt s.prevB
      rw [ih his (by rw [hpos]; omega) hrun, riseBalance_qaRise hu, hpos, add_assoc]
    · have hpos := exec_keeps_pos hu hi hq
      rw [List.count_cons_of_ne hq] at hroom
      rw [ih his (hpos ▸ hroom) hrun, riseBalance_of_ne hu hq, hpos]

/-- With the cached B level constant every rise counts in the same direction. -/
theorem riseBalance_of_constant_prevB (hrst : ∀ i ∈ is, agentOf i ≠ some .rst)
    (hb : ∀ i ∈ is, i ≠ .qbEdge ∧ phaseOf i ≠ some .st9) (h : run is s = .next t) :
    riseBalance is s = is.count .qaRise * riseDirection s.prevB := by
  induction is generalizing s with
  | nil => simp [riseBalance]
  | cons i is ih =>
    obtain ⟨u, hu, hrun⟩ := run_cons_eq_next.mp h
    obtain ⟨hi, his⟩ := List.forall_mem_cons.mp hrst
    obtain ⟨⟨hqb, h9⟩, hbs⟩ := List.forall_mem_cons.mp hb
    have hrest := ih his hbs hrun
    rw [exec_keeps_prevB hu hi hqb h9] at hrest
    by_cases hq : i = .qaRise
    · subst hq
      rw [riseBalance_qaRise hu, hrest, List.count_cons_self]
      push_cast
      ring
    · rw [riseBalance_of_ne hu hq, hrest, List.count_cons_of_ne hq]

end Sys2Proof.Machine
end

section
/-! PROOFS. The statements of 40_quadrature_decoder.md, with those of the other handlers that do one plain write
(41:R110, 42:R120, 42:R121). -/

namespace Sys2Proof.Proofs

open Sys2Proof Sys2Proof.Machine

/-- Settles O15, by induction on the run: the bound on the rises keeps each of them off the limits, and no other
operation but RESET writes the position. -/
theorem positionCountsRises : Obligations.PositionCountsRises := by
  intro is s t hs hcount hrst h
  have h0 : s.pos.toInt = 0 := by simp [hs]
  have hroom : |s.pos.toInt| + is.count .qaRise < 2 ^ 31 := by rw [h0, abs_zero]; omega
  have hpos : t.pos.toInt = riseBalance is s := by rw [run_pos hrst hroom h, h0, zero_add]
  refine ⟨hpos, fun hb => ?_⟩
  rw [hpos, riseBalance_of_constant_prevB hrst hb h]
  cases s.prevB <;> simp [riseDirection]

/-- Settles O11: the handler is taken, and its body either stands at a limit with POS_OVERFLOW = fault or counts. -/
theorem qaRiseCounts : Obligations.QaRiseCounts := by
  intro s hp he
  have hlim := countAtLimit_iff s.prevB s.pos
  refine ⟨_, takeInterrupt_of_pending .qaRise qaRiseBody hp he, ?_⟩
  split
  next h =>
    obtain ⟨hf, hl⟩ := h
    exact qaRiseBody_fault (s := writePend .qaRise false s) hf (hlim.mpr hl)
  next h =>
    rw [qaRiseBody_count (s := writePend .qaRise false s) (mt (And.imp_right hlim.mp) h)]
    exact ⟨countPos_toInt s.prevB s.pos, rfl⟩

/-- Settles O12: each handler is taken, and its body is the one write. -/
theorem plainHandlers : Obligations.PlainHandlers := fun _ =>
  ⟨takeInterrupt_of_pending .qbEdge qbEdgeBody, takeInterrupt_of_pending .pwRise pwRiseBody,
    takeInterrupt_of_pending .leTick leTickBody, takeInterrupt_of_pending .liIndex liIndexBody⟩

end Sys2Proof.Proofs
end

section
/-! PROOFS. Pulse-width capture (41_pulse_capture.md): the modular difference of two clock values (R112), what each
operation does to the microsecond clock and to the recorded rise (R115), and both over a run (R113). -/

namespace Sys2Proof.Machine

variable {i : Instr} {is js : List Instr} {s t : State}

/-! ### Differences of clock values -/

theorem toNat_sub_eq_emod (a b : Word) : ((a - b).toNat : Int) = ((a.toNat : Int) - b.toNat) % 2 ^ 32 := by
  rw [BitVec.toNat_sub]
  omega

/-- An advance below 2^32 is recovered as a difference, whether the clock wrapped or not. -/
theorem toNat_advance_sub (r : Word) {n : Nat} (h : n < 2 ^ 32) : (r + BitVec.ofNat 32 n - r).toNat = n := by
  rw [BitVec.add_comm, BitVec.add_sub_cancel, BitVec.toNat_ofNat, Nat.mod_eq_of_lt h]

/-! ### Who writes the clock and the recorded rise -/

/-- The microsecond clock from `s` to `t`: set by RESET, set by `PW_FALL`, or advanced by what `ENV_US` adds, which is
nothing for every other operation. -/
inductive UsClockWrite (i : Instr) (s t : State) : Prop where
  | reset (ha : agentOf i = some .rst)
  | measured (hi : i = .pwFall)
  | advanced (hc : t.usClock = s.usClock + BitVec.ofNat 32 (usAdvance i))

theorem UsClockWrite.kept (hi : usAdvance i = 0) (hc : t.usClock = s.usClock) : UsClockWrite i s t :=
  .advanced (by rw [hi, hc, BitVec.add_zero])

theorem usAdvance_instrOfCommand (c : Command) : usAdvance (instrOfCommand c) = 0 := by
  cases c <;> rfl

theorem performCommand_usClock {c : Command} (h : performCommand c s = .ok t) : t.usClock = s.usClock := by
  obtain ⟨hf, -⟩ := performCommand_frame h
  rw [hf]

theorem exec_usClock (h : exec i s = .next t) : UsClockWrite i s t := by
  apply exec_cases h (fun i t => UsClockWrite i s t)
  case reset => exact fun _ _ => .reset rfl
  case pwFall => exact fun _ => .measured rfl
  case envUs => exact fun _ _ => .advanced rfl
  case qaRise => exact fun _ => .kept rfl (by rw [qaRiseBody_frame]; rfl)
  case s2b =>
    intro _ _ _ _ _ hu
    have hc := performCommand_usClock hu
    exact .kept rfl hc
  case cmd => exact fun c hc => .kept (usAdvance_instrOfCommand c) (performCommand_usClock hc)
  case envEdge => exact fun _ ht _ => .kept rfl (by rw [ht])
  all_goals intros; exact .kept rfl rfl

theorem exec_advances_usClock (h : exec i s = .next t) (hrst : agentOf i ≠ some .rst) (hi : i ≠ .pwFall) :
    t.usClock = s.usClock + BitVec.ofNat 32 (usAdvance i) := by
  cases exec_usClock h with
  | reset ha => exact absurd ha hrst
  | measured hf => exact absurd hf hi
  | advanced hc => exact hc

theorem exec_keeps_riseUs (h : exec i s = .next t) (hrst : agentOf i ≠ some .rst) (hi : i ≠ .pwRise) :
    t.riseUs = s.riseUs := by
  cases exec_permittedWrites h with
  | reset ha => exact absurd ha hrst
  | handler k ha hw =>
    by_contra hr
    obtain rfl := hw.riseUs hr
    exact hi (eq_handlerOf_of_agentOf ha)
  | foreground _ hw => exact hw.riseUs
  | environment _ hw => rw [hw]

/-! ### The clock and the recorded rise over a run -/

theorem run_append_eq_next : run (is ++ js) s = .next t ↔ ∃ u, run is s = .next u ∧ run js u = .next t := by
  induction is generalizing s with
  | nil => simp [run]
  | cons i is ih =>
    rw [List.cons_append, run, run]
    cases exec i s <;> simp [ih]

theorem run_singleton (i : Instr) (s : State) : run [i] s = exec i s := by
  rw [run]
  cases exec i s <;> rfl

theorem run_keeps_riseUs (hrst : ∀ i ∈ is, agentOf i ≠ some .rst) (hrise : ∀ i ∈ is, i ≠ .pwRise)
    (h : run is s = .next t) : t.riseUs = s.riseUs := by
  induction is generalizing s with
  | nil => rw [Host.Outcome.next.inj h]
  | cons i is ih =>
    obtain ⟨u, hu, hrun⟩ := run_cons_eq_next.mp h
    obtain ⟨hi, his⟩ := List.forall_mem_cons.mp hrst
    obtain ⟨hir, hisr⟩ := List.forall_mem_cons.mp hrise
    rw [ih his hisr hrun, exec_keeps_riseUs hu hi hir]

theorem run_advances_usClock (hrst : ∀ i ∈ is, agentOf i ≠ some .rst) (hfall : ∀ i ∈ is, i ≠ .pwFall)
    (h : run is s = .next t) : t.usClock = s.usClock + BitVec.ofNat 32 (is.map usAdvance).sum := by
  induction is generalizing s with
  | nil =>
    obtain rfl := Host.Outcome.next.inj h
    exact (BitVec.add_zero s.usClock).symm
  | cons i is ih =>
    obtain ⟨u, hu, hrun⟩ := run_cons_eq_next.mp h
    obtain ⟨hi, his⟩ := List.forall_mem_cons.mp hrst
    obtain ⟨hif, hisf⟩ := List.forall_mem_cons.mp hfall
    rw [ih his hisf hrun, exec_advances_usClock hu hi hif, List.map_cons, List.sum_cons, BitVec.ofNat_add,
      BitVec.add_assoc]

end Sys2Proof.Machine
end

section
/-! PROOFS. The statements of 41_pulse_capture.md. -/

namespace Sys2Proof.Proofs

open Sys2Proof Sys2Proof.Machine

/-- Settles O14: between the two handlers the recorded rise stays and the clock moves on by the total advance, so the
falling edge's difference is that advance. -/
theorem pulseWidthIsTotalAdvance : Obligations.PulseWidthIsTotalAdvance := by
  intro s t mid hmid hsum h
  simp only [imp_and, forall_and] at hmid
  obtain ⟨hnoRise, hnoFall, hrst⟩ := hmid
  obtain ⟨u, hpulse, hfall⟩ := run_append_eq_next.mp h
  obtain ⟨r, hrise, hbetween⟩ := run_append_eq_next.mp hpulse
  rw [run_singleton] at hrise hfall
  have hstart : r.riseUs = r.usClock := by
    obtain ⟨-, rfl⟩ := exec_pwRise hrise
    rfl
  have hkept : u.riseUs = r.riseUs := run_keeps_riseUs hrst hnoRise hbetween
  have hclock : u.usClock = r.usClock + BitVec.ofNat 32 (mid.map usAdvance).sum :=
    run_advances_usClock hrst hnoFall hbetween
  obtain ⟨-, rfl⟩ := exec_pwFall hfall
  refine ⟨?_, rfl⟩
  calc (u.usClock - u.riseUs).toNat
    _ = (r.usClock + BitVec.ofNat 32 (mid.map usAdvance).sum - r.usClock).toNat := by rw [hclock, hkept, hstart]
    _ = (mid.map usAdvance).sum := toNat_advance_sub r.usClock hsum

/-- Settles O13: the handler is taken, and its body writes the modular difference and resets the clock. -/
theorem pwFallMeasures : Obligations.PwFallMeasures := fun s hp he =>
  ⟨_, takeInterrupt_of_pending .pwFall pwFallBody hp he, toNat_sub_eq_emod s.usClock s.riseUs, rfl⟩

end Sys2Proof.Proofs
end

section
/-! PROOFS. The rotary index (42_rotary_index.md): the floor of R123 passes through the clamp to the quotient inside, and
the values of R125 are instances of the law so obtained. -/

namespace Sys2Proof.Machine

open Sys2Proof

/-- R123's clamp has whole bounds and its argument is not negative, so only the upper bound acts, and it acts on the
floored quotient. -/
theorem bearing_eq_min (tpr : Nat) (tc : Word) : bearing tpr tc = ((min (tc.toNat * 360 / tpr) 359 : Nat) : Int) := by
  have hpos : (0 : NumV) ≤ min ((tc.toNat : NumV) * 360 / tpr) 359 := by positivity
  have hquot : ⌊(tc.toNat : NumV) * 360 / tpr⌋ = ((tc.toNat * 360 / tpr : Nat) : Int) := by
    exact_mod_cast Rat.floor_natCast_div_natCast (tc.toNat * 360) tpr
  calc bearing tpr tc
    _ = ⌊min ((tc.toNat : NumV) * 360 / tpr) 359⌋ := by
        rw [bearing, clamp_eq_max_min _ (by norm_num), max_eq_right hpos]; rfl
    _ = min ⌊(tc.toNat : NumV) * 360 / tpr⌋ ⌊(359 : NumV)⌋ := Int.floor_mono.map_min
    _ = ((min (tc.toNat * 360 / tpr) 359 : Nat) : Int) := by rw [hquot, Int.floor_ofNat, Nat.cast_min]; rfl

theorem bearing_zero (tpr : Nat) : bearing tpr 0 = 0 := by simp [bearing_eq_min]

/-- A full revolution's quotient is 360, which the clamp lowers to 359. -/
theorem bearing_full_revolution {tpr : Nat} (hpos : 0 < tpr) (hlt : tpr < 2 ^ 32) :
    bearing tpr (BitVec.ofNat 32 tpr) = 359 := by
  have hquot : tpr * 360 / tpr = 360 := Nat.mul_div_cancel_left 360 hpos
  rw [bearing_eq_min, BitVec.toNat_ofNat, Nat.mod_eq_of_lt hlt, hquot]
  rfl

end Sys2Proof.Machine
end

section
/-! PROOFS. The statement of 42_rotary_index.md. -/

namespace Sys2Proof.Proofs

open Sys2Proof Sys2Proof.Machine

/-- Settles O42: the bearing is the clamped quotient for every tick count; a full revolution and the values of R125 for
TPR = 1346 are cases of it. -/
theorem bearingIsClampedQuotient : Obligations.BearingIsClampedQuotient := by
  intro tpr hpos
  refine ⟨bearing_eq_min tpr, bearing_zero tpr, bearing_full_revolution hpos, ?_, ?_⟩
  · simp [bearing_eq_min]
  · exact bearing_full_revolution (tpr := 1346) (by decide) (by decide)

end Sys2Proof.Proofs
end

section
/-! PROOFS. The smoother under NUMERIC = exact (43_smoother.md): what its two operations do on their own lines, and the
weighted sum that a list of updates leaves in `s`. -/

namespace Sys2Proof.Machine

variable {s : State} {v : NumV}

theorem smUpdate_unwritten (hv : s.smooth = none) (y : NumV) : smUpdate y s = .error (.unwritten .s) := by
  rw [smUpdate, hv]; rfl

theorem exec_smSeed_exact (hn : s.cfg.numeric = .exact) (y : NumV) :
    exec (.smSeed y) s = .next { s with smooth := some y } :=
  finish_eq_next.mpr (smSeed_exact hn y)

theorem exec_smUpdate_exact (hn : s.cfg.numeric = .exact) (hv : s.smooth = some v) (y : NumV) :
    exec (.smUpdate y) s = .next { s with smooth := some (s.cfg.alpha * y + (1 - s.cfg.alpha) * v) } :=
  finish_eq_next.mpr (smUpdate_exact hn hv y)

theorem exec_smUpdate_unwritten (hv : s.smooth = none) (y : NumV) :
    exec (.smUpdate y) s = .refused (.unwritten .s) :=
  finish_eq_refused.mpr (smUpdate_unwritten hv y)

/-- The sum of R134 over samples counted from 0: `v` and the samples `ys` after it, each weighted by its age. -/
def weightedSamples (a v : NumV) (ys : List NumV) : NumV :=
  (1 - a) ^ ys.length * v + ∑ k ∈ Finset.range ys.length, a * (1 - a) ^ (ys.length - 1 - k) * ys.getD k 0

@[simp] theorem weightedSamples_nil (a v : NumV) : weightedSamples a v [] = v := by simp [weightedSamples]

/-- The law of R131 moves the first sample into the value that the later samples are weighted against. -/
theorem weightedSamples_cons (a v y : NumV) (ys : List NumV) :
    weightedSamples a v (y :: ys) = weightedSamples a (a * y + (1 - a) * v) ys := by
  have hage (k : Nat) : ys.length + 1 - 1 - (k + 1) = ys.length - 1 - k := by omega
  simp only [weightedSamples, List.length_cons, Finset.sum_range_succ', List.getD_cons_succ, List.getD_cons_zero, hage]
  rw [Nat.sub_zero, Nat.add_sub_cancel]
  ring

theorem run_smUpdates_exact (ys : List NumV) (hn : s.cfg.numeric = .exact) (hv : s.smooth = some v) :
    run (ys.map .smUpdate) s = .next { s with smooth := some (weightedSamples s.cfg.alpha v ys) } := by
  induction ys generalizing s v with
  | nil => rw [weightedSamples_nil, ← hv]; rfl
  | cons y ys ih =>
    rw [weightedSamples_cons]
    exact run_cons_eq_next.mpr ⟨_, exec_smUpdate_exact hn hv y, ih hn rfl⟩

end Sys2Proof.Machine
end

section
/-! PROOFS. The statements of 43_smoother.md. -/

namespace Sys2Proof.Proofs

open Sys2Proof Sys2Proof.Machine

/-- Settles O19: the new value is a convex combination of the sample and the old value. -/
theorem smUpdateContracts : Obligations.SmUpdateContracts := by
  intro s y v hn hpos hle hv
  have hmove : s.cfg.alpha * y + (1 - s.cfg.alpha) * v - v = s.cfg.alpha * (y - v) := by ring
  have hrest : 0 ≤ 1 - s.cfg.alpha := sub_nonneg.mpr hle
  have hsum : s.cfg.alpha + (1 - s.cfg.alpha) = 1 := add_sub_cancel _ _
  refine ⟨_, _, exec_smUpdate_exact hn hv y, rfl, hmove, ?_, ?_, ?_⟩
  · rw [hmove, abs_mul, abs_of_pos hpos]
  · rw [min_comm]; exact Convex.min_le_combo y v hpos.le hrest hsum
  · rw [max_comm]; exact Convex.combo_le_max y v hpos.le hrest hsum

/-- Settles O20: the seed writes the value that the updates, by induction over their list, weight with the samples. -/
theorem smoothedClosedForm : Obligations.SmoothedClosedForm := fun _ y0 ys hn =>
  run_cons_eq_next.mpr ⟨_, exec_smSeed_exact hn y0, run_smUpdates_exact ys hn rfl⟩

/-- Settles O17: under NUMERIC = exact the sample is not rounded, and it is written as it stands. -/
theorem smSeedTakesSample : Obligations.SmSeedTakesSample := fun _ y hn => exec_smSeed_exact hn y

/-- Settles O18: the law where `s` is written, the refusal where it is not. -/
theorem smUpdateLaw : Obligations.SmUpdateLaw := fun _ y hn =>
  ⟨fun _ hv => exec_smUpdate_exact hn hv y, fun hv => exec_smUpdate_unwritten hv y⟩

end Sys2Proof.Proofs
end

section
/-! PROOFS. The loop phases (44_scheduler.md): what each phase computes in its branches, where a phase that reads unwritten
fields stops (60:R227), and which operations write the last telemetry instant (R152). -/

namespace Sys2Proof.Machine

variable {i : Instr} {s t : State}

/-! ### A selected phase is refused as its body is -/

theorem phaseStep_refused {p : Phase} {body : State → Except Refusal State} {r : Refusal} (hp : s.ph = p)
    (h : body s = .error r) : phaseStep p body s = .refused r :=
  (if_pos hp).trans (finish_eq_refused.mpr h)

theorem emitStep_refused {e : SubPhase} {body : State → Except Refusal State} {r : Refusal} (hp : s.ph = .s6)
    (he : s.em = e) (h : body s = .error r) : emitStep e body s = .refused r :=
  (if_pos ⟨hp, he⟩).trans (finish_eq_refused.mpr h)

/-! ### Reads of unwritten fields -/

/-- While one of the fields `fs` is unwritten in `s`, the computation `x` is refused for such a field. -/
def StopsAtUnwritten {α : Type} (fs : List Field) (s : State) (x : Except Refusal α) : Prop :=
  (∃ f ∈ fs, isUnwritten f s = true) → ∃ f ∈ fs, isUnwritten f s = true ∧ x = .error (.unwritten f)

theorem stopsAtUnwritten_nil {α : Type} (s : State) (x : Except Refusal α) : StopsAtUnwritten [] s x := by
  simp [StopsAtUnwritten]

/-- A read of `f`, then a computation that reads `fs`. -/
theorem stopsAtUnwritten_need {α β : Type} {f : Field} {fs : List Field} {x : Option α}
    {k : α → Except Refusal β} (hx : isUnwritten f s = x.isNone) (hk : ∀ v, StopsAtUnwritten fs s (k v)) :
    StopsAtUnwritten (f :: fs) s (need x f >>= k) := by
  intro hu
  cases x with
  | none => exact ⟨f, List.mem_cons_self, hx, rfl⟩
  | some v =>
    have hrest : ∃ g ∈ fs, isUnwritten g s = true := by simpa [hx] using hu
    obtain ⟨g, hg, hgu, he⟩ := hk v hrest
    exact ⟨g, List.mem_cons_of_mem f hg, hgu, he⟩

/-- What follows a computation does not run where it stops. -/
theorem StopsAtUnwritten.bind {α β : Type} {fs : List Field} {x : Except Refusal α} (h : StopsAtUnwritten fs s x)
    (k : α → Except Refusal β) : StopsAtUnwritten fs s (x >>= k) := by
  intro hu
  obtain ⟨f, hf, hfu, rfl⟩ := h hu
  exact ⟨f, hf, hfu, rfl⟩

/-- R162's preconditions, then a computation that reads `fs`. -/
theorem stopsAtUnwritten_pidReady {β : Type} {fs : List Field} {k : NumV × NumV × NumV → Except Refusal β}
    (hk : ∀ r, StopsAtUnwritten fs s (k r)) :
    StopsAtUnwritten (.minOut :: .maxOut :: .ts :: fs) s (pidReady s >>= k) := by
  simp only [pidReady, bind_assoc, ok_bind]
  exact stopsAtUnwritten_need rfl fun _ => stopsAtUnwritten_need rfl fun _ => stopsAtUnwritten_need rfl fun _ => hk _

theorem pidUpdate_stopsAtUnwritten (y : NumV) (s : State) :
    StopsAtUnwritten [.minOut, .maxOut, .ts, .kp, .ki, .kd, .setpoint] s (pidUpdate y s) :=
  stopsAtUnwritten_pidReady fun _ => stopsAtUnwritten_need rfl fun _ => stopsAtUnwritten_need rfl fun _ =>
    stopsAtUnwritten_need rfl fun _ => stopsAtUnwritten_need rfl fun _ => stopsAtUnwritten_nil s _

/-! ### S1: the sample -/

theorem s1Sample_exact {v : NumV} (hn : s.cfg.numeric = .exact) (hv : s.smooth = some v) (y : NumV) :
    s1Sample y s = .ok { s with smooth := some (s.cfg.alpha * y + (1 - s.cfg.alpha) * v), ph := .s2 } := by
  rw [s1Sample, smUpdate_exact hn hv]; rfl

theorem s1Sample_unwritten (hv : s.smooth = none) (y : NumV) : s1Sample y s = .error (.unwritten .s) := by
  rw [s1Sample, smUpdate_unwritten hv]; rfl

/-! ### S2: the byte -/

theorem rxGetc_empty (hr : s.rxFifo = []) : rxGetc s = none := by
  rw [rxGetc, hr]

theorem rxGetc_oldest {b : Byte} {rest : List Byte} (hr : s.rxFifo = b :: rest) :
    rxGetc s = some (b, { s with rxFifo := rest }) := by
  rw [rxGetc, hr]

theorem s2Serial_idle (h : s.cfg.pidTuner = false ∨ s.rxFifo = []) : s2Serial s = .ok { s with ph := .s3 } := by
  obtain ht | hr := h
  · rw [s2Serial, ht]; rfl
  · rw [s2Serial, rxGetc_empty hr]; exact ite_self _

theorem s2Serial_byte {b : Byte} {rest : List Byte} (ht : s.cfg.pidTuner = true) (hr : s.rxFifo = b :: rest) :
    s2Serial s = performCommand (decodeCommand b) { s with rxFifo := rest } >>= fun u => .ok (goto .s3 u) := by
  rw [s2Serial, ht, rxGetc_oldest hr]; rfl

/-! ### S3: the controller -/

theorem s3Control_of_update {v : NumV} (hv : s.smooth = some v) (hu : pidUpdate v s = .ok t) :
    s3Control s = .ok { t with steerDuty := some t.output, ph := .s4 } := by
  rw [s3Control, hv, need_some, ok_bind, hu]; rfl

theorem s3Control_stopsAtUnwritten (s : State) :
    StopsAtUnwritten [.s, .minOut, .maxOut, .ts, .kp, .ki, .kd, .setpoint] s (s3Control s) :=
  stopsAtUnwritten_need rfl fun v => (pidUpdate_stopsAtUnwritten v s).bind _

/-! ### S4: the range -/

theorem s4Range_pwm (hb : s.cfg.rangeBackend = .pwm) (rdy : Option Bit) (d : Option Word) :
    s4Range rdy d s = .ok { s with rangeLatch := s.widthUs, ph := .s5 } := by
  rw [s4Range, hb]; rfl

theorem s4Range_i2c (hb : s.cfg.rangeBackend = .i2c) (rdy : Option Bit) (d : Option Word) :
    s4Range rdy d s = .ok (goto .s5 (latchDistance d s)) := by
  rw [s4Range, hb]

/-- RF_RDY high: no distance is read. -/
theorem latchDistance_high (hl : s.lvl.rfRdy = true) (d : Option Word) : latchDistance d s = s := if_pos hl

/-- RF_RDY low: the distance, and the counter the read leaves. -/
theorem latchDistance_low (hl : s.lvl.rfRdy = false) (d : Option Word) :
    latchDistance d s = { (portDistance d s).2 with rangeLatch := (portDistance d s).1 } :=
  if_neg (Bool.eq_false_iff.mp hl)

/-! ### S6: the emission -/

/-- R148's guard as the difference modulo 2^32. -/
theorem emissionDue_iff (now prev : Word) (n : Nat) :
    emissionDue now prev n = true ↔ ((now.toNat : Int) - prev.toNat) % 2 ^ 32 ≥ n := by
  rw [emissionDue, decide_eq_true_iff, ← toNat_sub_eq_emod, ge_iff_le, Nat.cast_le]

theorem s6Emit_due {v : NumV} (hn : s.cfg.numeric = .exact) (hv : s.smooth = some v)
    (hd : emissionDue s.msClock s.prevEmitMs s.cfg.timestepMs = true) :
    s6Emit s = .ok { s with
      prevEmitMs := s.msClock, em := .e1,
      emRec := { s.emRec with t := some s.msClock, sa := some ⌊1000 * v⌋ } } := by
  simp only [s6Emit, portMs, if_pos hd, hv, hn, need_some, ok_bind, mulNum_exact]
  rfl

theorem s6Emit_unwritten (hv : s.smooth = none)
    (hd : emissionDue s.msClock s.prevEmitMs s.cfg.timestepMs = true) : s6Emit s = .error (.unwritten .s) := by
  simp only [s6Emit, portMs, if_pos hd, hv, need_none, error_bind]

theorem s6Emit_notDue (hd : ¬emissionDue s.msClock s.prevEmitMs s.cfg.timestepMs = true) :
    s6Emit s = .ok { s with ph := .s1 } := if_neg hd

/-! ### Who writes the last telemetry instant -/

/-- The last telemetry instant and the emission sequence from `s` to `t`: anything by RESET, an emission begun by S6 with
the timestep passed, or the instant left and no emission begun. -/
inductive EmissionWrite (i : Instr) (s t : State) : Prop where
  | reset (ha : agentOf i = some .rst)
  | kept (hp : t.prevEmitMs = s.prevEmitMs) (he : s.em = .idle → t.em = .idle)
  | begun (hs6 : i = .s6Emit) (ht : t.emRec.t = some t.prevEmitMs) (he : t.em = .e1)
      (hd : emissionDue t.prevEmitMs s.prevEmitMs s.cfg.timestepMs = true)

theorem EmissionWrite.of_eq (hp : t.prevEmitMs = s.prevEmitMs) (he : t.em = s.em) : EmissionWrite i s t :=
  .kept hp he.trans

theorem performCommand_emission {c : Command} (h : performCommand c s = .ok t) :
    t.prevEmitMs = s.prevEmitMs ∧ t.em = s.em := by
  obtain ⟨hf, -⟩ := performCommand_frame h
  rw [hf]
  exact ⟨rfl, rfl⟩

theorem exec_emissionWrite (h : exec i s = .next t) : EmissionWrite i s t := by
  apply exec_cases h (fun i t => EmissionWrite i s t)
  case reset => exact fun _ _ => .reset rfl
  case s6b => exact fun _ _ hd _ => .begun rfl rfl rfl hd
  case emOdo =>
    intro _ he1
    exact .kept rfl fun hidle => nomatch hidle.symm.trans he1
  case emSend => exact fun _ _ _ => .kept rfl fun _ => rfl
  case qaRise => exact fun _ => .of_eq (by rw [qaRiseBody_frame]; rfl) (by rw [qaRiseBody_frame]; rfl)
  case s2b =>
    intro _ _ _ _ _ hu
    obtain ⟨hp, he⟩ := performCommand_emission hu
    exact .of_eq hp he
  case cmd =>
    intro _ hc
    obtain ⟨hp, he⟩ := performCommand_emission hc
    exact .of_eq hp he
  case envEdge => exact fun _ ht _ => .of_eq (by rw [ht]) (by rw [ht])
  all_goals intros; exact .of_eq rfl rfl

end Sys2Proof.Machine
end

section
/-! PROOFS. The statements of 44_scheduler.md. -/

namespace Sys2Proof.Proofs

open Sys2Proof Sys2Proof.Machine

/-- Settles O41: of the operations other than RESET only an emitting S6 writes the last telemetry instant, and its guard
has found the timestep passed. -/
theorem emissionsKeepTheTimestep : Obligations.EmissionsKeepTheTimestep := by
  intro i s t h hrst
  cases exec_emissionWrite h with
  | reset ha => exact absurd ha hrst
  | kept hp he => exact .inl ⟨hp, he⟩
  | begun hs6 ht he hd => exact .inr ⟨hs6, ht, he, of_decide_eq_true hd⟩

/-- Settles O33: the phase is one smoother update, by the law of R131 or refused with it. -/
theorem s1Samples : Obligations.S1Samples := fun _ y hp hn =>
  ⟨fun _ hv => phaseStep_eq_next.mpr ⟨hp, s1Sample_exact hn hv y⟩,
    fun hv => phaseStep_refused hp (s1Sample_unwritten hv y)⟩

/-- Settles O34: without a byte or a parser only the phase moves; with a byte, S2 ends as the command performed on the
rest of the queue does. -/
theorem s2TakesOneByte : Obligations.S2TakesOneByte := by
  intro s hp
  refine ⟨fun h => phaseStep_eq_next.mpr ⟨hp, s2Serial_idle h⟩, ?_, ?_⟩
  · intro b rest t ht hr hc
    rw [exec_command, finish_eq_next] at hc
    exact phaseStep_eq_next.mpr ⟨hp, by rw [s2Serial_byte ht hr, hc]; rfl⟩
  · intro b rest r ht hr hc
    rw [exec_command, finish_eq_refused] at hc
    exact phaseStep_refused hp (by rw [s2Serial_byte ht hr, hc]; rfl)

/-- Settles O35: with every field written the update completes and its output becomes the duty; the first unwritten field
in the order of the reads is the one the phase is refused for. -/
theorem s3Controls : Obligations.S3Controls := by
  intro s hp
  constructor
  · intro v lo hi p kp ki kd sp hn hv hlo hhi hts hkp hki hkd hsp hpos
    have hu := pidUpdate_exact hlo hhi hts hn hkp hki hkd hsp hpos v
    exact ⟨_, finish_eq_next.mpr hu, phaseStep_eq_next.mpr ⟨hp, s3Control_of_update hv hu⟩⟩
  · intro hu
    obtain ⟨f, hf, hfu, he⟩ := s3Control_stopsAtUnwritten s hu
    exact ⟨f, hf, hfu, phaseStep_refused hp he⟩

/-- Settles O36: PWM copies the width; I2C reads the level of the line, and where it is low the distance, which is free
where none is written. -/
theorem s4Latches : Obligations.S4Latches := by
  intro s hp
  refine ⟨fun hb rdy d => phaseStep_eq_next.mpr ⟨hp, s4Range_pwm hb rdy d⟩, fun hb hl rdy => ⟨fun d => ?_, ?_⟩,
    fun hb hl rdy d => ?_⟩
  · exact phaseStep_eq_next.mpr ⟨hp, by rw [s4Range_i2c hb, latchDistance_low hl]; rfl⟩
  · exact ⟨Config.rfDistance s.choices,
      phaseStep_eq_next.mpr ⟨hp, by rw [s4Range_i2c hb, latchDistance_low hl]; rfl⟩⟩
  · exact phaseStep_eq_next.mpr ⟨hp, by rw [s4Range_i2c hb, latchDistance_high hl]; rfl⟩

/-- Settles O37: the phase has one branch, which latches its draw. -/
theorem s5Latches : Obligations.S5Latches := fun _ _ hp => phaseStep_eq_next.mpr ⟨hp, rfl⟩

/-- Settles O38: the statement's difference is the guard's, and each side of the guard has its own next state. -/
theorem s6EmitsOnTimestep : Obligations.S6EmitsOnTimestep := by
  intro s hp he hn
  simp only [← emissionDue_iff]
  split
  next hd =>
    exact ⟨fun v hv => emitStep_eq_next.mpr ⟨⟨hp, he⟩, s6Emit_due hn hv hd⟩,
      fun hv => emitStep_refused hp he (s6Emit_unwritten hv hd)⟩
  next hd => exact emitStep_eq_next.mpr ⟨⟨hp, he⟩, s6Emit_notDue hd⟩

end Sys2Proof.Proofs
end

section
/-! PROOFS. The controller's four operations on their own lines (45_pid.md): the refusals of R161 and R162, the law of
R163, and the roll-back of R164 that leaves the integrator as it was. -/

namespace Sys2Proof.Machine

variable {s t : State} {lo hi p : NumV}

/-! ### The refusals -/

/-- Bounds out of order or a period that is not positive (R161). -/
theorem pidInit_refused_exact (hn : s.cfg.numeric = .exact) (hbad : hi < lo ∨ p ≤ 0) :
    pidInit lo hi p s = .error .badPidConfig := by
  have hcheck : ¬(lo ≤ hi ∧ 0 < p) := fun ⟨hle, hpos⟩ => hbad.elim hle.not_gt hpos.not_ge
  simp only [pidInit, hn, literal_exact, ok_bind, if_neg hcheck]

theorem pidSetpid_stopsAtUnwritten (kp ki kd : NumV) (s : State) :
    StopsAtUnwritten [.minOut, .maxOut, .ts] s (pidSetpid kp ki kd s) :=
  stopsAtUnwritten_pidReady fun _ => stopsAtUnwritten_nil s _

theorem pidSetpoint_stopsAtUnwritten (v : NumV) (s : State) :
    StopsAtUnwritten [.minOut, .maxOut, .ts] s (pidSetpoint v s) :=
  stopsAtUnwritten_pidReady fun _ => stopsAtUnwritten_nil s _

/-- An operation is refused for the field its body stops at. -/
theorem StopsAtUnwritten.finish {fs : List Field} {x : Except Refusal State} (h : StopsAtUnwritten fs s x)
    (hu : ∃ f ∈ fs, isUnwritten f s = true) :
    ∃ f ∈ fs, isUnwritten f s = true ∧ finish x = .refused (.unwritten f) := by
  obtain ⟨f, hf, hfu, he⟩ := h hu
  exact ⟨f, hf, hfu, finish_eq_refused.mpr he⟩

/-! ### The update -/

/-- `wind` of R163 as the spec writes it. -/
theorem windup_iff (u lo hi e : NumV) : windup u lo hi e = true ↔ (hi < u ∧ 0 < e) ∨ (u < lo ∧ e < 0) := by
  simp only [windup, Bool.or_eq_true, Bool.and_eq_true, decide_eq_true_eq]

/-- The roll-back undoes the addition it follows (R164). -/
theorem rollBack_restores (i et : NumV) : rollBack .exact true (i + et) et = .ok i := by
  rw [rollBack_exact, if_pos rfl, add_sub_cancel_right]

/-- A zero divisor is refused under every NUMERIC. -/
theorem divNum_zero (nm : Numeric) (a : NumV) : divNum nm a 0 = .error .notANumber := if_pos rfl

/-- An update that completes has divided by its period. -/
theorem ts_ne_zero_of_pidUpdate {y : NumV} (hts : s.ts = some p) (h : pidUpdate y s = .ok t) : p ≠ 0 := by
  rintro rfl
  simp only [pidUpdate, bind_eq_ok] at h
  obtain ⟨⟨_, _, p⟩, hready, _, -, _, -, _, -, _, -, _, -, _, -, _, -, _, -, _, -, _, hdiv, -⟩ := h
  obtain ⟨-, -, hp⟩ := pidReady_eq_ok.mp hready
  obtain rfl : 0 = p := Option.some.inj (hts.symm.trans hp)
  exact nomatch (divNum_zero _ _).symm.trans hdiv

section Written

variable (hlo : s.minOut = some lo) (hhi : s.maxOut = some hi) (hts : s.ts = some p)

include hlo hhi hts

/-- The law of R163, with the anti-windup test and the clamp as the spec writes them. -/
theorem exec_pidUpdate_exact {kp ki kd sp : NumV} (hn : s.cfg.numeric = .exact) (hkp : s.kp = some kp)
    (hki : s.ki = some ki) (hkd : s.kd = some kd) (hsp : s.setpoint = some sp) (hp : 0 < p) (y : NumV) :
    let e := sp - y
    let i1 := s.integ + e * p
    let u := kp * e + ki * i1 + kd * ((e - s.ePrev) / p)
    exec (.pidUpdate y) s = .next { s with
      integ := if (hi < u ∧ 0 < e) ∨ (u < lo ∧ e < 0) then i1 - e * p else i1,
      output := if u < lo then lo else if hi < u then hi else u,
      ePrev := e } := by
  intro e i1 u
  have hlaw := pidUpdate_exact hlo hhi hts hn hkp hki hkd hsp hp y
  simp only [windup_iff] at hlaw
  exact finish_eq_next.mpr hlaw

/-- Where `wind` holds of the unclamped output, a completed update leaves the integrator as it was (R167). -/
theorem pidUpdate_keeps_integ {kp ki kd sp y : NumV} (hn : s.cfg.numeric = .exact) (hkp : s.kp = some kp)
    (hki : s.ki = some ki) (hkd : s.kd = some kd) (hsp : s.setpoint = some sp) (h : pidUpdate y s = .ok t)
    (hw : windup (kp * (sp - y) + ki * (s.integ + (sp - y) * p) + kd * ((sp - y - s.ePrev) / p)) lo hi (sp - y) =
      true) :
    t.integ = s.integ := by
  have hp : p ≠ 0 := ts_ne_zero_of_pidUpdate hts h
  simp only [pidUpdate, pidReady_written hlo hhi hts, hn, hkp, hki, hkd, hsp, need_some, ok_bind, literal_exact,
    subNum_exact, mulNum_exact, addNum_exact, divNum_exact _ hp, hw, rollBack_restores] at h
  rw [← Except.ok.inj h]

end Written

end Sys2Proof.Machine
end

section
/-! PROOFS. The statements of 45_pid.md. -/

namespace Sys2Proof.Proofs

open Sys2Proof Sys2Proof.Machine

/-- Settles O22: each entry point reads the fields R162 lists before anything else, and is refused for the first one
that is unwritten. -/
theorem pidPreconditions : Obligations.PidPreconditions := fun s =>
  ⟨fun hu y => (pidUpdate_stopsAtUnwritten y s).finish hu, fun hu =>
    ⟨fun p i d => (pidSetpid_stopsAtUnwritten p i d s).finish hu,
      fun v => (pidSetpoint_stopsAtUnwritten v s).finish hu⟩⟩

/-- Settles O24: at either bound the error pushes outward, so R163's `wind` holds and the roll-back undoes the
update. -/
theorem antiWindupKeepsIntegrator : Obligations.AntiWindupKeepsIntegrator := by
  intro s t y lo hi p kp ki kd sp hn hlo hhi hts hkp hki hkd hsp h hout
  apply pidUpdate_keeps_integ hlo hhi hts hn hkp hki hkd hsp (finish_eq_next.mp h)
  rw [windup_iff]
  obtain ⟨-, hu, hy⟩ | ⟨-, hu, hy⟩ := hout
  · exact .inl ⟨hu, sub_pos.mpr hy⟩
  · exact .inr ⟨hu, sub_neg.mpr hy⟩

/-- Settles O25: whatever NUMERIC made of `u`, the output is `u` clamped to the bounds that are written. -/
theorem outputWithinBounds : Obligations.OutputWithinBounds := by
  intro s t y lo hi hlo hhi hle h
  obtain ⟨_, u, _, lo', hi', hlo', hhi', rfl⟩ := exec_pidUpdate h
  obtain rfl : lo = lo' := Option.some.inj (hlo.symm.trans hlo')
  obtain rfl : hi = hi' := Option.some.inj (hhi.symm.trans hhi')
  exact clamp_bounds u hle

/-- Settles O21: R161's check passes in the first case and fails in the second. -/
theorem pidInitWritesOrRefuses : Obligations.PidInitWritesOrRefuses := fun _ _ _ _ hn =>
  ⟨fun hle hp => finish_eq_next.mpr (pidInit_exact hn hle hp),
    fun hbad => finish_eq_refused.mpr (pidInit_refused_exact hn hbad)⟩

/-- Settles O23: under NUMERIC = exact no step of R163 rounds, and the period is no zero divisor. -/
theorem pidUpdateLaw : Obligations.PidUpdateLaw := fun _ y _ _ _ _ _ _ _ hn hlo hhi hts hkp hki hkd hsp hp =>
  exec_pidUpdate_exact hlo hhi hts hn hkp hki hkd hsp hp y

/-- Settles O26: once bounds and period are written the setters refuse nothing; the gains are written as they stand, the
setpoint clamped. -/
theorem pidSettersWrite : Obligations.PidSettersWrite := fun _ _ _ _ hn hlo hhi hts =>
  ⟨fun kp ki kd => finish_eq_next.mpr (pidSetpid_exact hlo hhi hts hn kp ki kd),
    fun v => finish_eq_next.mpr (pidSetpoint_exact hlo hhi hts hn v)⟩

end Sys2Proof.Proofs
end

section
/-! PROOFS. The tuning commands on their own lines (46_command_parser.md): what each writes and where it is refused
(60:R227), the number a digit list spells (R191), and a run of digits into the buffer (R187). -/

namespace Sys2Proof.Machine

variable {s : State}

/-! ### The gain commands -/

/-- A gain's step that refuses no gain. -/
def StepsEveryGain (f : NumV → Except Refusal NumV) : Prop := ∀ g, ∃ g', f g = .ok g'

theorem keepGain_eq_ok (g : NumV) : keepGain g = .ok g := rfl

theorem stepsEveryGain_keepGain : StepsEveryGain keepGain := fun g => ⟨g, keepGain_eq_ok g⟩

theorem stepsEveryGain_raiseGain {nm : Numeric} (hn : nm = .exact) (k : NumV) : StepsEveryGain (raiseGain nm k) :=
  fun g => ⟨g + k, by rw [hn, raiseGain_exact]⟩

theorem stepsEveryGain_lowerGain {nm : Numeric} (hn : nm = .exact) (k : NumV) : StepsEveryGain (lowerGain nm k) :=
  fun g => ⟨g - k, by rw [hn, lowerGain_exact]⟩

/-- A computation that gives a value, then one that reads `fs`. -/
theorem stopsAtUnwritten_of_ok {α β : Type} {fs : List Field} {x : Except Refusal α} {k : α → Except Refusal β}
    (hx : ∃ v, x = .ok v) (hk : ∀ v, StopsAtUnwritten fs s (k v)) : StopsAtUnwritten fs s (x >>= k) := by
  obtain ⟨v, rfl⟩ := hx
  exact hk v

/-- The three gains are read first, and then the fields `PID_SETPID` reads (R162). -/
theorem stepGains_stopsAtUnwritten {f g k : NumV → Except Refusal NumV} (hf : StepsEveryGain f)
    (hg : StepsEveryGain g) (hk : StepsEveryGain k) (s : State) :
    StopsAtUnwritten [.kp, .ki, .kd, .minOut, .maxOut, .ts] s (stepGains f g k s) :=
  stopsAtUnwritten_need rfl fun p => stopsAtUnwritten_need rfl fun i => stopsAtUnwritten_need rfl fun d =>
    stopsAtUnwritten_of_ok (hf p) fun _ => stopsAtUnwritten_of_ok (hg i) fun _ =>
      stopsAtUnwritten_of_ok (hk d) fun _ => pidSetpid_stopsAtUnwritten _ _ _ s

section Gains

variable {lo hi p kp ki kd v : NumV} (hn : s.cfg.numeric = .exact)
  (hlo : s.minOut = some lo) (hhi : s.maxOut = some hi) (hts : s.ts = some p)
  (hkp : s.kp = some kp) (hki : s.ki = some ki) (hkd : s.kd = some kd)

include hn hlo hhi hts hkp hki hkd

theorem stepGains_kp {f : NumV → Except Refusal NumV} (hf : f kp = .ok v) :
    stepGains f keepGain keepGain s = .ok { s with kp := some v } := by
  rw [stepGains_exact hlo hhi hts hn hkp hki hkd hf (keepGain_eq_ok ki) (keepGain_eq_ok kd),
    ← hki, ← hkd]

theorem stepGains_ki {f : NumV → Except Refusal NumV} (hf : f ki = .ok v) :
    stepGains keepGain f keepGain s = .ok { s with ki := some v } := by
  rw [stepGains_exact hlo hhi hts hn hkp hki hkd (keepGain_eq_ok kp) hf (keepGain_eq_ok kd),
    ← hkp, ← hkd]

theorem stepGains_kd {f : NumV → Except Refusal NumV} (hf : f kd = .ok v) :
    stepGains keepGain keepGain f s = .ok { s with kd := some v } := by
  rw [stepGains_exact hlo hhi hts hn hkp hki hkd (keepGain_eq_ok kp) (keepGain_eq_ok ki) hf,
    ← hkp, ← hki]

end Gains

/-! ### The digits -/

theorem exec_cmdDigit_appends {d : Digit} (h : s.cmdBuf.length < s.cfg.cmdBufMax - 1) :
    exec (.cmdDigit d) s = .next { s with cmdBuf := s.cmdBuf ++ [d], txLog := s.txLog ++ [.echo d] } :=
  finish_eq_next.mpr (if_pos h)

theorem exec_cmdDigit_drops {d : Digit} (h : s.cfg.cmdBufMax - 1 ≤ s.cmdBuf.length) :
    exec (.cmdDigit d) s = .next s :=
  finish_eq_next.mpr (if_neg h.not_gt)

/-- Digits that fit are appended and echoed in their order. -/
theorem run_cmdDigits (ds : List Digit) (h : s.cmdBuf.length + ds.length ≤ s.cfg.cmdBufMax - 1) :
    run (ds.map .cmdDigit) s = .next { s with cmdBuf := s.cmdBuf ++ ds, txLog := s.txLog ++ ds.map .echo } := by
  induction ds generalizing s with
  | nil => simp [run]
  | cons d ds ih =>
    rw [List.length_cons] at h
    have hroom : s.cmdBuf.length < s.cfg.cmdBufMax - 1 := by omega
    have hrest : (s.cmdBuf ++ [d]).length + ds.length ≤ s.cfg.cmdBufMax - 1 := by
      rw [List.length_append, List.length_singleton]; omega
    refine run_cons_eq_next.mpr ⟨_, exec_cmdDigit_appends hroom, ?_⟩
    rw [ih hrest]
    simp only [List.append_assoc, List.singleton_append, List.map_cons]

/-- Horner's rule of R191 from the value `v` of the digits before `ds`. -/
theorem foldl_digits (v : Nat) (ds : List Digit) :
    ds.foldl (fun v d => 10 * v + d.val) v =
      v * 10 ^ ds.length + ∑ j ∈ Finset.range ds.length, (ds.getD j 0).val * 10 ^ (ds.length - 1 - j) := by
  induction ds generalizing v with
  | nil => simp
  | cons d ds ih =>
    have hplace (k : Nat) : ds.length + 1 - 1 - (k + 1) = ds.length - 1 - k := by omega
    simp only [List.foldl_cons, ih, List.length_cons, Finset.sum_range_succ', List.getD_cons_succ,
      List.getD_cons_zero, hplace]
    rw [Nat.sub_zero, Nat.add_sub_cancel]
    ring

theorem digitsValue_eq_sum (ds : List Digit) :
    digitsValue ds = ∑ j ∈ Finset.range ds.length, (ds.getD j 0).val * 10 ^ (ds.length - 1 - j) := by
  rw [digitsValue, foldl_digits, zero_mul, zero_add]

/-! ### The commit -/

theorem cmdCommit_ignored (h : s.cmdBuf = [] ∧ s.cfg.emptyCommit = .ignore) : cmdCommit s = .ok s := if_pos h

/-- A commit that commits reads what `PID_SETPOINT` reads (R162). -/
theorem cmdCommit_stopsAtUnwritten (hn : s.cfg.numeric = .exact)
    (hc : ¬(s.cmdBuf = [] ∧ s.cfg.emptyCommit = .ignore)) :
    StopsAtUnwritten [.minOut, .maxOut, .ts] s (cmdCommit s) := by
  rw [cmdCommit, if_neg hc, hn, divNum_exact _ (by norm_num), ok_bind]
  exact (pidSetpoint_stopsAtUnwritten _ s).bind _

/-- With the bounds 0 and 1 the lower one never acts on a digit list's value. -/
theorem clamp_thousandths (n : Nat) : clamp ((n : NumV) / 1000) 0 1 = min ((n : NumV) / 1000) 1 := by
  have hpos : (0 : NumV) ≤ min ((n : NumV) / 1000) 1 := by positivity
  rw [clamp_eq_max_min _ zero_le_one, max_eq_right hpos]

/-! ### The status -/

theorem cmdStatus_written {kp ki kd sp : NumV} (hkp : s.kp = some kp) (hki : s.ki = some ki) (hkd : s.kd = some kd)
    (hsp : s.setpoint = some sp) :
    cmdStatus s = .ok { s with
      txLog := s.txLog ++ [.status ⟨kp, ki, kd, s.integ, s.ePrev, sp, s.output⟩] } :=
  bind_eq_ok.mpr ⟨kp, need_eq_ok.mpr hkp, bind_eq_ok.mpr ⟨ki, need_eq_ok.mpr hki,
    bind_eq_ok.mpr ⟨kd, need_eq_ok.mpr hkd, bind_eq_ok.mpr ⟨sp, need_eq_ok.mpr hsp, rfl⟩⟩⟩⟩

theorem cmdStatus_stopsAtUnwritten (s : State) :
    StopsAtUnwritten [.kp, .ki, .kd, .setpoint] s (cmdStatus s) :=
  stopsAtUnwritten_need rfl fun _ => stopsAtUnwritten_need rfl fun _ => stopsAtUnwritten_need rfl fun _ =>
    stopsAtUnwritten_need rfl fun _ => stopsAtUnwritten_nil s _

end Sys2Proof.Machine
end

section
/-! PROOFS. The statements of 46_command_parser.md. -/

namespace Sys2Proof.Proofs

open Sys2Proof Sys2Proof.Machine

/-- Settles O30: Horner's rule, started at 0. -/
theorem digitsSpellDecimal : Obligations.DigitsSpellDecimal := digitsValue_eq_sum

/-- Settles O31: the digits fit into the empty buffer, the commit sets their value over 1000 and clears the buffer, and of
the bounds 0 and 1 only the upper one can act. -/
theorem setpointRoundTrip : Obligations.SetpointRoundTrip := by
  intro s ds p hn hmax hlo hhi hts hempty hne hlen
  have hdigits := run_cmdDigits (s := s) ds (by rw [hempty, hmax, List.length_nil]; omega)
  rw [hempty, List.nil_append] at hdigits
  have hcommit := cmdCommit_exact (s := { s with cmdBuf := ds, txLog := s.txLog ++ ds.map .echo }) hlo hhi hts hn
    fun hignored => hne hignored.1
  rw [clamp_thousandths, ← hempty] at hcommit
  rw [← digitsValue_eq_sum]
  exact run_append_eq_next.mpr ⟨_, hdigits, (run_singleton _ _).trans (finish_eq_next.mpr hcommit)⟩

/-- Settles O27: one gain is stepped, the other two are written as they were read; the first unwritten field in the order
of the reads is the one the command is refused for. -/
theorem gainCommandsStep : Obligations.GainCommandsStep := by
  intro s hn
  constructor
  · intro lo hi p kp ki kd hlo hhi hts hkp hki hkd
    have raised (k g : NumV) : raiseGain s.cfg.numeric k g = .ok (g + k) := by rw [hn, raiseGain_exact]
    have lowered (k g : NumV) : lowerGain s.cfg.numeric k g = .ok (g - k) := by rw [hn, lowerGain_exact]
    exact ⟨finish_eq_next.mpr (stepGains_kp hn hlo hhi hts hkp hki hkd (raised _ _)),
      finish_eq_next.mpr (stepGains_kp hn hlo hhi hts hkp hki hkd (lowered _ _)),
      finish_eq_next.mpr (stepGains_ki hn hlo hhi hts hkp hki hkd (raised _ _)),
      finish_eq_next.mpr (stepGains_ki hn hlo hhi hts hkp hki hkd (lowered _ _)),
      finish_eq_next.mpr (stepGains_kd hn hlo hhi hts hkp hki hkd (raised _ _)),
      finish_eq_next.mpr (stepGains_kd hn hlo hhi hts hkp hki hkd (lowered _ _))⟩
  · intro hu
    have keep := stepsEveryGain_keepGain
    have raise := stepsEveryGain_raiseGain hn
    have lower := stepsEveryGain_lowerGain hn
    simp only [List.forall_mem_cons]
    exact ⟨(stepGains_stopsAtUnwritten (raise _) keep keep s).finish hu,
      (stepGains_stopsAtUnwritten (lower _) keep keep s).finish hu,
      (stepGains_stopsAtUnwritten keep (raise _) keep s).finish hu,
      (stepGains_stopsAtUnwritten keep (lower _) keep s).finish hu,
      (stepGains_stopsAtUnwritten keep keep (raise _) s).finish hu,
      (stepGains_stopsAtUnwritten keep keep (lower _) s).finish hu, List.forall_mem_nil _⟩

/-- Settles O28: the two sides of R187's test of the capacity. -/
theorem digitAppendsOrDrops : Obligations.DigitAppendsOrDrops := fun _ _ =>
  ⟨exec_cmdDigit_appends, exec_cmdDigit_drops⟩

/-- Settles O29: an empty buffer under EMPTY_COMMIT = ignore is left; any other commit is `PID_SETPOINT` of the buffer's
value, with its refusals. -/
theorem commitSetsSetpoint : Obligations.CommitSetsSetpoint := fun _ hn =>
  ⟨fun hignored => finish_eq_next.mpr (cmdCommit_ignored hignored), fun hc =>
    ⟨fun _ _ _ hlo hhi hts => finish_eq_next.mpr (cmdCommit_exact hlo hhi hts hn hc),
      (cmdCommit_stopsAtUnwritten hn hc).finish⟩⟩

/-- Settles O32: the four reads come before the record, and the first unwritten one stops the command. -/
theorem statusRecordsState : Obligations.StatusRecordsState := fun s =>
  ⟨fun _ _ _ _ hkp hki hkd hsp => finish_eq_next.mpr (cmdStatus_written hkp hki hkd hsp),
    (cmdStatus_stopsAtUnwritten s).finish⟩

end Sys2Proof.Proofs
end

section
/-! PROOFS. The decimal text of a number (47_telemetry.md R205) is Mathlib's `Nat.digits`, most significant first, in
characters; and the branches of `EM_SEND` (R203). -/

namespace Sys2Proof.Machine

variable {s : State}

/-! ### Decimal text -/

theorem digitChar_toNat (n : Nat) : (digitChar n).toNat = 48 + n % 10 := by
  have hvalid : (48 + n % 10).isValidChar := .inl (by omega)
  rw [digitChar, Char.toNat_ofNat, if_pos hvalid]

theorem digitChar_ne_zero {d : Nat} (h0 : d ≠ 0) (h10 : d < 10) : digitChar d ≠ '0' := by
  intro hd
  have hcode : 48 + d % 10 = 48 := (digitChar_toNat d).symm.trans (congrArg Char.toNat hd)
  omega

/-- The fuel bounds the number of digits. -/
theorem natDigits_eq_digits {fuel n : Nat} (acc : List Char) (hpos : 0 < n) (hfuel : n < 10 ^ fuel) :
    natDigits fuel n acc = (Nat.digits 10 n).reverse.map digitChar ++ acc := by
  induction fuel generalizing n acc with
  | zero => omega
  | succ fuel ih =>
    rw [natDigits]
    split
    next hlt => simp [Nat.digits_of_lt 10 n hpos.ne' hlt]
    next hge =>
      have hfuel' : n / 10 < 10 ^ fuel := by
        rw [pow_succ] at hfuel
        exact Nat.div_lt_of_lt_mul (by omega)
      rw [ih _ (by omega) hfuel', Nat.digits_def' (by decide) hpos]
      simp

/-- The fuel `log2 n + 1`, a number of binary digits, is enough decimal ones. -/
theorem natText_eq_digits {n : Nat} (hpos : 0 < n) : natText n = (Nat.digits 10 n).reverse.map digitChar := by
  have hfuel : n < 10 ^ (n.log2 + 1) := Nat.lt_log2_self.trans_le (Nat.pow_le_pow_left (by decide) _)
  rw [natText, natDigits_eq_digits [] hpos hfuel, List.append_nil]

theorem natText_zero : natText 0 = ['0'] := by decide

/-- Reading characters back from the most significant on gives the number their digits spell. -/
theorem foldl_digitChars {ds : List Nat} (h : ∀ d ∈ ds, d < 10) :
    (ds.reverse.map digitChar).foldl (fun v c => 10 * v + (c.toNat - 48)) 0 = Nat.ofDigits 10 ds := by
  induction ds with
  | nil => rfl
  | cons d ds ih =>
    obtain ⟨hd, hds⟩ := List.forall_mem_cons.mp h
    simp only [List.reverse_cons, List.map_append, List.map_singleton, List.foldl_append, List.foldl_cons,
      List.foldl_nil, ih hds, digitChar_toNat, Nat.mod_eq_of_lt hd, Nat.ofDigits_cons, Nat.add_sub_cancel_left]
    exact Nat.add_comm _ _

theorem natText_spells (n : Nat) : (natText n).foldl (fun v c => 10 * v + (c.toNat - 48)) 0 = n := by
  obtain rfl | hpos := n.eq_zero_or_pos
  · rw [natText_zero]; rfl
  · rw [natText_eq_digits hpos, foldl_digitChars fun _ => Nat.digits_lt_base (by decide), Nat.ofDigits_digits]

theorem natText_mem {n : Nat} {c : Char} (hc : c ∈ natText n) : ∃ d, c = digitChar d := by
  obtain rfl | hpos := n.eq_zero_or_pos
  · exact ⟨0, List.mem_singleton.mp (natText_zero ▸ hc)⟩
  · rw [natText_eq_digits hpos, List.mem_map] at hc
    obtain ⟨d, -, rfl⟩ := hc
    exact ⟨d, rfl⟩

theorem natText_ne_nil (n : Nat) : natText n ≠ [] := by
  obtain rfl | hpos := n.eq_zero_or_pos
  · simp [natText_zero]
  · simpa [natText_eq_digits hpos] using Nat.digits_ne_nil_iff_ne_zero.mpr hpos.ne'

/-- No leading zeros: the most significant digit is the last of `Nat.digits`. -/
theorem natText_head_ne_zero {n : Nat} (hpos : 0 < n) : (natText n).head? ≠ some '0' := by
  have hne : Nat.digits 10 n ≠ [] := Nat.digits_ne_nil_iff_ne_zero.mpr hpos.ne'
  have hlt := Nat.digits_lt_base (by decide) (List.getLast_mem hne)
  rw [natText_eq_digits hpos, List.head?_map, List.head?_reverse, List.getLast?_eq_some_getLast hne, Option.map_some,
    ne_eq, Option.some_inj]
  exact digitChar_ne_zero (Nat.getLast_digit_ne_zero 10 hpos.ne') hlt

theorem intText_eq (z : Int) : intText z = (if z < 0 then ['-'] else []) ++ natText z.natAbs := by
  unfold intText
  split <;> rfl

/-! ### The emission of a line -/

theorem telemBearing_eq (s : State) :
    telemBearing s = if s.cfg.rangeBackend = .pwm then bearing s.cfg.tpr s.tickCount else 0 := by
  unfold telemBearing
  cases s.cfg.rangeBackend <;> rfl

theorem emSend_written {t odo : Word} {sa : Int} {c : Cal} {q : Quat} (hr : s.emRec = ⟨some t, some sa, some odo⟩)
    (hc : s.cal = some c) (hq : s.quat = some q) :
    emSend s = .ok { s with
      txLog := s.txLog ++ [.telem ⟨t, c, q, sa, odo, s.rangeLatch, telemBearing s⟩], em := .idle, ph := .s1 } := by
  have ht : s.emRec.t = some t := by rw [hr]
  have hsa : s.emRec.sa = some sa := by rw [hr]
  have hodo : s.emRec.odo = some odo := by rw [hr]
  exact bind_eq_ok.mpr ⟨t, need_eq_ok.mpr ht, bind_eq_ok.mpr ⟨c, need_eq_ok.mpr hc,
    bind_eq_ok.mpr ⟨q, need_eq_ok.mpr hq, bind_eq_ok.mpr ⟨sa, need_eq_ok.mpr hsa,
      bind_eq_ok.mpr ⟨odo, need_eq_ok.mpr hodo, rfl⟩⟩⟩⟩⟩

theorem emSend_stopsAtUnwritten (s : State) :
    StopsAtUnwritten [.emT, .cal, .quat, .emSa, .emOdo] s (emSend s) :=
  stopsAtUnwritten_need rfl fun _ => stopsAtUnwritten_need rfl fun _ => stopsAtUnwritten_need rfl fun _ =>
    stopsAtUnwritten_need rfl fun _ => stopsAtUnwritten_need rfl fun _ => stopsAtUnwritten_nil s _

end Sys2Proof.Machine
end

section
/-! PROOFS. The statements of 47_telemetry.md. -/

namespace Sys2Proof.Proofs

open Sys2Proof Sys2Proof.Machine

/-- Settles O58: the text is that of the decimal digits, which spell the number and end with a digit other than 0. -/
theorem decimalText : Obligations.DecimalText := by
  refine ⟨fun n => ⟨natText_spells n, fun c hc => ?_, natText_ne_nil n, natText_head_ne_zero, ?_⟩, intText_eq⟩
  · obtain ⟨d, rfl⟩ := natText_mem hc
    rw [digitChar_toNat]
    omega
  · rintro rfl
    exact natText_zero

/-- Settles O39: the micro-step has one branch, which reads the position. -/
theorem emOdoReadsPosition : Obligations.EmOdoReadsPosition := fun _ hp he => emitStep_eq_next.mpr ⟨⟨hp, he⟩, rfl⟩

/-- Settles O40: with every field of the line written the record is emitted; the first unwritten field in the order of the
reads is the one the micro-step is refused for. -/
theorem emSendEmitsLine : Obligations.EmSendEmitsLine := by
  intro s hp he
  constructor
  · intro t sa odo c q hr hc hq
    rw [← telemBearing_eq]
    exact emitStep_eq_next.mpr ⟨⟨hp, he⟩, emSend_written hr hc hq⟩
  · intro hu
    obtain ⟨f, hf, hfu, hstop⟩ := emSend_stopsAtUnwritten s hu
    exact ⟨f, hf, hfu, emitStep_refused hp he hstop⟩

/-- Settles O59: the format is the definition of the text; the example line is evaluated, its bearing by the law of
R123. -/
theorem exampleLine : Obligations.ExampleLine := by
  refine ⟨fun _ => rfl, fun d => ⟨digitChar d.val, rfl, ?_⟩, ?_⟩
  · rw [digitChar_toNat, Nat.mod_eq_of_lt d.isLt]
  · have hbearing : bearing 1346 673#32 = 180 := by rw [bearing_eq_min]; decide
    rw [hbearing]
    decide +kernel

end Sys2Proof.Proofs
end

section
/-! PROOFS. Interrupts (60_exceptions.md): who requests a source and who takes it (R217, R219), what keeps a request
waiting, and what each operation does to the phase. -/

namespace Sys2Proof.Machine

variable {i : Instr} {k : Source} {s t : State}

/-! ### The handlers -/

/-- The body of the handler of source k (R215). -/
def handlerBody : Source → State → State
  | .qaRise => qaRiseBody
  | .qbEdge => qbEdgeBody
  | .pwRise => pwRiseBody
  | .pwFall => pwFallBody
  | .leTick => leTickBody
  | .liIndex => liIndexBody

theorem exec_handlerOf (k : Source) (s : State) : exec (handlerOf k) s = takeInterrupt k (handlerBody k) s := by
  cases k <;> rfl

/-- Nothing in a handler's body requests or drops a source. -/
theorem handlerBody_pend (k : Source) (s : State) : (handlerBody k s).pend = s.pend := by
  cases k with
  | qaRise => rw [handlerBody, qaRiseBody_frame]
  | qbEdge | pwRise | pwFall | leTick | liIndex => rfl

theorem handlerEnabled_iff : handlerEnabled k s = true ↔ getSource s.pend k = true ∧ getSource s.en k = true :=
  Bool.and_eq_true_iff

theorem exec_handlerOf_eq_next :
    exec (handlerOf k) s = .next t ↔ handlerEnabled k s = true ∧ t = handlerBody k (writePend k false s) := by
  rw [exec_handlerOf, takeInterrupt_eq_next]

/-! ### Who writes the requests and the levels -/

/-- The requests and the line levels from `s` to `t`: anything by RESET, the own request dropped by a handler, a line
toggled with the requests of its edge, or both left. -/
inductive RequestWrite (i : Instr) (s t : State) : Prop where
  | reset (ha : agentOf i = some .rst)
  | taken (k : Source) (hi : i = handlerOf k) (hp : t.pend = setSource s.pend k false) (hl : t.lvl = s.lvl)
  | edge (l : Line) (hi : i = .envEdge l) (hl : t.lvl = toggleLevel s.lvl l)
      (hp : ∀ j, getSource t.pend j = (getSource s.pend j ||
        (decide (j ∈ edgeSources l (!getLevel s.lvl l)) && getSource s.en j)))
  | kept (hp : t.pend = s.pend) (hl : t.lvl = s.lvl)

theorem performCommand_requests {c : Command} (h : performCommand c s = .ok t) : t.pend = s.pend ∧ t.lvl = s.lvl := by
  obtain ⟨hf, -⟩ := performCommand_frame h
  rw [hf]
  exact ⟨rfl, rfl⟩

theorem exec_requestWrite (h : exec i s = .next t) : RequestWrite i s t := by
  apply exec_cases h (fun i t => RequestWrite i s t)
  case reset => exact fun _ _ => .reset rfl
  case qaRise => exact fun _ => .taken .qaRise rfl (by rw [qaRiseBody_frame]; rfl) (by rw [qaRiseBody_frame]; rfl)
  case qbEdge => exact fun _ => .taken .qbEdge rfl rfl rfl
  case pwRise => exact fun _ => .taken .pwRise rfl rfl rfl
  case pwFall => exact fun _ => .taken .pwFall rfl rfl rfl
  case leTick => exact fun _ => .taken .leTick rfl rfl rfl
  case liIndex => exact fun _ => .taken .liIndex rfl rfl rfl
  case envEdge => exact fun l ht hp => .edge l rfl (by rw [ht]) hp
  case s2b =>
    intro _ _ _ _ _ hu
    obtain ⟨hp, hl⟩ := performCommand_requests hu
    exact .kept hp hl
  case cmd =>
    intro _ hc
    obtain ⟨hp, hl⟩ := performCommand_requests hc
    exact .kept hp hl
  all_goals intros; exact .kept rfl rfl

/-! ### What keeps a request waiting -/

/-- R261's "1 if the option, else unchanged", with the options as Booleans. -/
theorem enableSources_eq (c : Params) (e : SourceBits) :
    enableSources c e =
      { qaRise := true
        qbEdge := true
        pwRise := e.pwRise || (c.rangeBackend == .pwm && c.lidarAttached)
        pwFall := e.pwFall || (c.rangeBackend == .pwm && c.lidarAttached)
        leTick := e.leTick || c.lidarAttached
        liIndex := e.liIndex || c.lidarAttached } := by
  unfold enableSources
  cases c.lidarAttached with
  | false => simp
  | true => cases c.rangeBackend <;> simp

/-- The one operation that writes the enable bits without a reset sets some and clears none (R261). -/
theorem enableSources_of_enabled {c : Params} {e : SourceBits} (h : getSource e k = true) :
    getSource (enableSources c e) k = true := by
  rw [enableSources_eq]
  cases k with
  | qaRise | qbEdge => rfl
  | pwRise | pwFall | leTick | liIndex => exact (Bool.or_eq_true_iff ..).mpr (.inl h)

theorem exec_keeps_en (h : exec i s = .next t) (hrst : agentOf i ≠ some .rst) (hk : getSource s.en k = true) :
    getSource t.en k = true := by
  cases exec_permittedWrites h with
  | reset ha => exact absurd ha hrst
  | handler _ _ hw => rw [hw.frame]; exact hk
  | environment _ hw => rw [hw]; exact hk
  | foreground _ hw =>
    by_cases hen : t.en = s.en
    · rwa [hen]
    · obtain rfl := hw.en hen
      obtain ⟨-, rfl⟩ := exec_st10 h
      exact enableSources_of_enabled hk

theorem exec_keeps_pend (h : exec i s = .next t) (hrst : agentOf i ≠ some .rst) (hi : i ≠ handlerOf k)
    (hk : getSource s.pend k = true) : getSource t.pend k = true := by
  cases exec_requestWrite h with
  | reset ha => exact absurd ha hrst
  | taken j hj hp _ =>
    have hne : k ≠ j := fun hkj => hi (hkj ▸ hj)
    rwa [hp, getSource_setSource, if_neg hne]
  | edge l _ _ hp => rw [hp, hk, Bool.true_or]
  | kept hp => rwa [hp]

/-- Only its own handler or a RESET ends a pending enabled request. -/
theorem exec_keeps_handlerEnabled (h : exec i s = .next t) (hrst : agentOf i ≠ some .rst) (hi : i ≠ handlerOf k)
    (hk : handlerEnabled k s = true) : handlerEnabled k t = true := by
  obtain ⟨hp, he⟩ := handlerEnabled_iff.mp hk
  exact handlerEnabled_iff.mpr ⟨exec_keeps_pend h hrst hi hp, exec_keeps_en h hrst he⟩

/-- A request that no step of a run from `n` on serves or resets waits for ever. -/
theorem handlerEnabled_forever {act : Nat → Instr} {st : Nat → State} {n : Nat} (hrun : isRun act st)
    (hk : handlerEnabled k (st n) = true)
    (hnone : ∀ m, n ≤ m → act m ≠ handlerOf k ∧ agentOf (act m) ≠ some .rst) (m : Nat) (hm : n ≤ m) :
    handlerEnabled k (st m) = true := by
  induction m, hm using Nat.le_induction with
  | base => exact hk
  | succ m hm ih =>
    obtain ⟨hserve, hrst⟩ := hnone m hm
    obtain ⟨tr, c, hexec⟩ := hrun m
    exact exec_keeps_handlerEnabled (s := { st m with trace := tr, choices := c }) hexec hrst hserve ih

/-! ### The phase -/

/-- Every operation but RESET leaves the phase, moves it on, or stays in the loop (R141, R251). -/
def PhaseAdvances (s t : State) : Prop := phaseRank s.ph ≤ phaseRank t.ph ∨ 11 ≤ phaseRank t.ph

theorem PhaseAdvances.of_eq (h : t.ph = s.ph) : PhaseAdvances s t := .inl (by rw [h])

theorem performCommand_ph {c : Command} (h : performCommand c s = .ok t) : t.ph = s.ph := by
  obtain ⟨hf, -⟩ := performCommand_frame h
  rw [hf]

theorem exec_phaseAdvances (h : exec i s = .next t) : agentOf i ≠ some .rst → PhaseAdvances s t := by
  apply exec_cases h (fun i t => agentOf i ≠ some .rst → PhaseAdvances s t)
  case reset => exact fun _ _ hrst => absurd rfl hrst
  case qaRise => exact fun _ _ => .of_eq (by rw [qaRiseBody_frame]; rfl)
  case envEdge => exact fun _ ht _ _ => .of_eq (by rw [ht])
  case cmd => exact fun _ hc _ => .of_eq (performCommand_ph hc)
  case s1 | s2a | s2b | s3 | s4 | s5 | s6a | emSend | st10 => intros; exact .inr (by simp [phaseRank])
  case st1 | st2 | st3 | st4 | st5a | st6 | st7 | st8 | st9 => intros; exact .inl (by simp [phaseRank, *])
  all_goals intros; exact .of_eq rfl

/-- From a phase of startup or from the loop on, a run without a RESET does not go back before it. -/
theorem exec_keeps_phaseRank {n : Nat} (h : exec i s = .next t) (hrst : agentOf i ≠ some .rst) (hn : n ≤ 11)
    (hs : n ≤ phaseRank s.ph) : n ≤ phaseRank t.ph := by
  obtain hle | hloop := exec_phaseAdvances h hrst
  · exact hs.trans hle
  · exact hn.trans hloop

/-! ### The edges that request a source -/

/-- The edge of source k (R215): its line, and the new level that requests it. -/
def edgeMatches (l : Line) (up : Bit) : Source → Bool
  | .qaRise => l == .encA && up
  | .qbEdge => l == .encB
  | .pwRise => l == .pwIn && up
  | .pwFall => l == .pwIn && !up
  | .leTick => l == .lidEnc && up
  | .liIndex => l == .lidIdx && up

/-- The table of R215 by lines, which the model has, is the one by sources. -/
theorem decide_mem_edgeSources (l : Line) (up : Bit) (k : Source) :
    decide (k ∈ edgeSources l up) = edgeMatches l up k := by
  cases k <;> cases l <;> cases up <;> rfl

/-! ### The cached B level -/

/-- The cached level is the line's but for the edge whose request still waits (R224). -/
def DirectionCached (s : State) : Prop := s.prevB = (s.lvl.encB ^^ s.pend.qbEdge)

theorem enabled_of_exec (h : exec i s = .next t) : enabled i s = true := by
  by_contra hoff
  have hno := (exec_refusedUnless_enabled i s).mpr (Bool.eq_false_iff.mpr hoff)
  exact nomatch hno.symm.trans h

theorem phaseOf_of_exec {p : Phase} (h : exec i s = .next t) (hp : phaseOf i = some p) : s.ph = p := by
  obtain ⟨hphase, -⟩ := enabled_iff.mp (enabled_of_exec h)
  exact hphase p hp

/-- In the loop only handler 2 writes the cached level: ST9 is behind. -/
theorem exec_keeps_prevB_in_loop (h : exec i s = .next t) (hrst : agentOf i ≠ some .rst) (hi : i ≠ .qbEdge)
    (hs : 11 ≤ phaseRank s.ph) : t.prevB = s.prevB := by
  apply exec_keeps_prevB h hrst hi
  intro h9
  rw [phaseOf_of_exec h h9] at hs
  exact absurd hs (by decide)

/-- Handler 2 takes the edge it has waited for into the cached level. -/
theorem exec_qbEdge_directionCached (h : exec .qbEdge s = .next t) (hs : DirectionCached s) : DirectionCached t := by
  obtain ⟨hk, rfl⟩ := exec_qbEdge h
  have hpend : s.pend.qbEdge = true := (handlerEnabled_iff.mp hk).1
  show (!s.prevB) = (s.lvl.encB ^^ false)
  rw [hs, hpend, Bool.xor_true, Bool.not_not, Bool.xor_false]

/-- An edge on ENC_B that does not overrun finds no request waiting and leaves one. -/
theorem exec_encB_directionCached (h : exec (.envEdge .encB) s = .next t) (hen : s.en.qbEdge = true)
    (hover : overruns (.envEdge .encB) s = false) (hs : DirectionCached s) : DirectionCached t := by
  obtain ⟨ht, hp⟩ := exec_envEdge h
  obtain ⟨-, hold⟩ : s.pend.qaRise = false ∧ s.pend.qbEdge = false := by
    simpa [overruns, familySources, getSource] using hover
  have hnew : t.pend.qbEdge = true := by
    have hq := hp .qbEdge
    simpa [getSource, edgeSources, hold, hen] using hq
  have hprev : t.prevB = s.prevB := by rw [ht]
  have hlvl : t.lvl.encB = !s.lvl.encB := by rw [ht]; rfl
  rw [DirectionCached, hprev, hlvl, hnew, hs, hold, Bool.xor_false, Bool.xor_true, Bool.not_not]

/-- An edge on another line neither moves ENC_B nor requests source 2. -/
theorem exec_envEdge_encB_frame {l : Line} (h : exec (.envEdge l) s = .next t) (hl : l ≠ .encB) :
    t.prevB = s.prevB ∧ t.lvl.encB = s.lvl.encB ∧ t.pend.qbEdge = s.pend.qbEdge := by
  obtain ⟨ht, hp⟩ := exec_envEdge h
  have hno : edgeMatches l (!getLevel s.lvl l) .qbEdge = false := beq_false_of_ne hl
  have hpend : getSource t.pend .qbEdge = getSource s.pend .qbEdge := by
    rw [hp, decide_mem_edgeSources, hno, Bool.false_and, Bool.or_false]
  have hlvl : getLevel (toggleLevel s.lvl l) .encB = getLevel s.lvl .encB := by
    rw [getLevel_toggleLevel, if_neg hl.symm]
  exact ⟨by rw [ht], by rw [ht]; exact hlvl, hpend⟩

theorem exec_keeps_directionCached (h : exec i s = .next t) (hrst : agentOf i ≠ some .rst)
    (hloop : 11 ≤ phaseRank s.ph) (hen : s.en.qbEdge = true) (hover : overruns i s = false)
    (hs : DirectionCached s) : DirectionCached t := by
  by_cases hqb : i = .qbEdge
  · subst hqb
    exact exec_qbEdge_directionCached h hs
  have hprev := exec_keeps_prevB_in_loop h hrst hqb hloop
  cases exec_requestWrite h with
  | reset ha => exact absurd ha hrst
  | taken k hi hp hl =>
    have hk : Source.qbEdge ≠ k := fun hk => hqb (by rw [hi, ← hk]; rfl)
    have hpend : getSource t.pend .qbEdge = getSource s.pend .qbEdge := by rw [hp, getSource_setSource, if_neg hk]
    exact (hprev.trans hs).trans (by rw [hl]; exact congrArg _ hpend.symm)
  | edge l hi =>
    subst hi
    by_cases hl : l = .encB
    · subst hl
      exact exec_encB_directionCached h hen hover hs
    · obtain ⟨-, hlvl, hpend⟩ := exec_envEdge_encB_frame h hl
      exact (hprev.trans hs).trans (by rw [hlvl, hpend])
  | kept hp hl => exact (hprev.trans hs).trans (by rw [hl, hp])

/-! ### The environment's steps -/

theorem sourceBits_ext {a b : SourceBits} (h : ∀ k, getSource a k = getSource b k) : a = b := by
  cases a
  cases b
  rw [SourceBits.mk.injEq]
  exact ⟨h .qaRise, h .qbEdge, h .pwRise, h .pwFall, h .leTick, h .liIndex⟩

theorem ofNat_toNat_add (c : Word) (n : Nat) : BitVec.ofNat 32 (c.toNat + n) = c + BitVec.ofNat 32 n := by
  rw [BitVec.ofNat_add, BitVec.ofNat_toNat, BitVec.setWidth_eq]

theorem exec_envMs_running (hc : s.clkRun = true) (n : Nat) :
    exec (.envMs n) s = .next { s with msClock := s.msClock + BitVec.ofNat 32 n } := if_pos hc

theorem exec_envUs_running (hc : s.clkRun = true) (n : Nat) :
    exec (.envUs n) s = .next { s with usClock := s.usClock + BitVec.ofNat 32 n } := if_pos hc

end Sys2Proof.Machine
end

section
/-! PROOFS. The statements of 60_exceptions.md. -/

namespace Sys2Proof.Proofs

open Sys2Proof Sys2Proof.Machine

/-- Settles O10: each handler is its body behind the one guard, and no body writes the pending bits. -/
theorem handlerStepsExactlyWhenPending : Obligations.HandlerStepsExactlyWhenPending := by
  intro k s
  constructor
  · rw [← handlerEnabled_iff]
    exact ⟨fun ⟨_, h⟩ => (exec_handlerOf_eq_next.mp h).1, fun hk => ⟨_, exec_handlerOf_eq_next.mpr ⟨hk, rfl⟩⟩⟩
  · intro t h j
    obtain ⟨-, rfl⟩ := exec_handlerOf_eq_next.mp h
    rw [handlerBody_pend, writePend_pend, getSource_setSource]

/-- Settles O16: handler 2 and an edge on ENC_B each move both sides; no other step of the loop moves either. -/
theorem noOverrunKeepsDirection : Obligations.NoOverrunKeepsDirection := fun _ _ _ hloop hen hrst hover hs h =>
  ⟨exec_keeps_directionCached h hrst hloop hen hover hs, exec_keeps_phaseRank h hrst le_rfl hloop,
    exec_keeps_en (k := .qbEdge) h hrst hen⟩

/-- Settles O52: the invariant has every field written that an enabled step of an agent reads. -/
theorem enabledStepsComplete : Obligations.EnabledStepsComplete := fun _ _ => exec_completes

/-- Settles O60: a request that is neither served nor reset waits for ever, which fairness excludes. -/
theorem fairRunsServeRequests : Obligations.FairRunsServeRequests := by
  refine ⟨fun act st hrun hfair k n hp he => ?_, fun s t => step_eq_next⟩
  by_contra hnone
  simp only [not_exists, not_and, not_or] at hnone
  have hforever := handlerEnabled_forever hrun (handlerEnabled_iff.mpr ⟨hp, he⟩) hnone
  obtain ⟨m, hm, hserved⟩ := hfair.served k n hforever
  exact (hnone m hm).1 hserved

/-- Settles O48: the requests of the line's edge, read by sources as R215 lists them. -/
theorem edgeRequestsMatchingSources : Obligations.EdgeRequestsMatchingSources := by
  intro s l
  obtain ⟨ht, hp⟩ := exec_envEdge (s := s) (l := l) rfl
  refine ⟨edgeState l s, rfl, fun m => ?_, ?_⟩
  · rw [ht, getLevel_toggleLevel]
    split
    next hm => rw [hm]
    next => rfl
  · have hpend (k : Source) : getSource (edgeState l s).pend k =
        (getSource s.pend k || (getSource s.en k && edgeMatches l (!getLevel s.lvl l) k)) := by
      rw [hp, decide_mem_edgeSources, Bool.and_comm]
    rw [ht]
    congr 1
    apply sourceBits_ext
    intro k
    rw [hpend]
    cases k <;> simp only [edgeMatches, getSource, Bool.and_assoc]

/-- Settles O49: a byte is always taken, and the clock steps pass their guard. -/
theorem bytesQueueClocksAdvance : Obligations.BytesQueueClocksAdvance := by
  refine fun s => ⟨fun b => rfl, fun n hc => ⟨?_, ?_⟩⟩
  · rw [ofNat_toNat_add, exec_envMs_running hc]
  · rw [ofNat_toNat_add, exec_envUs_running hc]

end Sys2Proof.Proofs
end

section
/-! PROOFS. Reset and startup (70_reset_and_hazards.md): the steps that branch or compute, and which operations write the
throttle channel (R262). -/

namespace Sys2Proof.Machine

variable {i : Instr} {s t : State}

/-! ### The startup steps -/

theorem st5_notReady (s : State) :
    st5 false s = .ok { s with
      readyFail := s.readyFail + 1, led := !s.led,
      txLog := s.txLog ++ (if s.readyFail + 1 = s.cfg.readyDiagN then [.diag] else []) } := by
  by_cases hn : s.readyFail + 1 = s.cfg.readyDiagN
  · simp [st5, hn, emit]
  · simp [st5, hn]

theorem st7_exact (hn : s.cfg.numeric = .exact) :
    st7 s = .ok { s with throttleDuty := some s.cfg.throttleDuty, ph := .st8 } := by
  rw [st7, hn]; rfl

theorem st8_exact (hn : s.cfg.numeric = .exact) (y : NumV) : st8 y s = .ok { s with smooth := some y, ph := .st9 } := by
  rw [st8, smSeed_exact hn]; rfl

/-! ### Who writes the throttle channel -/

/-- The throttle channel from `s` to `t`: undriven by RESET, written before ST8, or left. -/
inductive ThrottleWrite (i : Instr) (s t : State) : Prop where
  | reset (ha : agentOf i = some .rst)
  | startup (hs : phaseRank s.ph < 8)
  | kept (hd : t.throttleDuty = s.throttleDuty) (hp : t.throttlePeriodUs = s.throttlePeriodUs)

theorem performCommand_throttle {c : Command} (h : performCommand c s = .ok t) :
    t.throttleDuty = s.throttleDuty ∧ t.throttlePeriodUs = s.throttlePeriodUs := by
  obtain ⟨hf, -⟩ := performCommand_frame h
  rw [hf]
  exact ⟨rfl, rfl⟩

theorem exec_throttle (h : exec i s = .next t) : ThrottleWrite i s t := by
  apply exec_cases h (fun i t => ThrottleWrite i s t)
  case reset => exact fun _ _ => .reset rfl
  case st6 => exact fun hp => .startup (by rw [hp]; decide)
  case st7 => exact fun hp _ => .startup (by rw [hp]; decide)
  case qaRise => exact fun _ => .kept (by rw [qaRiseBody_frame]; rfl) (by rw [qaRiseBody_frame]; rfl)
  case envEdge => exact fun _ ht _ => .kept (by rw [ht]) (by rw [ht])
  case s2b =>
    intro _ _ _ _ _ hu
    obtain ⟨hd, hp⟩ := performCommand_throttle hu
    exact .kept hd hp
  case cmd =>
    intro _ hc
    obtain ⟨hd, hp⟩ := performCommand_throttle hc
    exact .kept hd hp
  all_goals intros; exact .kept rfl rfl

end Sys2Proof.Machine
end

section
/-! PROOFS. The statements of 70_reset_and_hazards.md. -/

namespace Sys2Proof.Proofs

open Sys2Proof Sys2Proof.Machine

/-- Settles O56: the channel is written in phases before ST8 alone, and no operation but RESET goes back to them. -/
theorem throttleStaysAfterStartup : Obligations.ThrottleStaysAfterStartup := by
  intro i s t h8 h hrst
  cases exec_throttle h with
  | reset ha => exact absurd ha hrst
  | startup hs => exact absurd h8 hs.not_ge
  | kept hd hp => exact ⟨hd, hp, exec_keeps_phaseRank h hrst (by decide) h8⟩

/-- Settles O9: the fixed values are those of the reset state, and a written draw is not replaced by a free one. -/
theorem resetValues : Obligations.ResetValues := by
  intro led0 lvl0 s
  refine ⟨resetState led0 lvl0 s, rfl, ⟨rfl, rfl⟩, ⟨rfl, rfl, rfl⟩, ⟨rfl, rfl⟩, rfl, ⟨rfl, rfl, rfl, rfl, rfl, rfl, rfl⟩,
    ⟨rfl, rfl, rfl⟩, rfl, ⟨rfl, rfl, rfl⟩, ⟨rfl, rfl, rfl, rfl⟩, ⟨rfl, rfl, rfl⟩, ⟨rfl, rfl, rfl, rfl⟩, ?_, rfl, rfl, ?_,
    rfl, ?_⟩
  · rintro b rfl
    rfl
  · intro k
    cases k <;> exact ⟨rfl, rfl⟩
  · intro l b hb
    show getLevel (drawnLevels lvl0 (Config.resetLevels s.choices)) l = b
    rw [getLevel_drawnLevels, hb, Option.getD_some]

/-- Settles O43: each step is selected by its phase and has one branch. -/
theorem plainStartupSteps : Obligations.PlainStartupSteps := fun _ =>
  ⟨fun hp => phaseStep_eq_next.mpr ⟨hp, rfl⟩, fun hp => phaseStep_eq_next.mpr ⟨hp, rfl⟩,
    fun hp => phaseStep_eq_next.mpr ⟨hp, rfl⟩, fun hp => phaseStep_eq_next.mpr ⟨hp, rfl⟩,
    fun hp hn => phaseStep_eq_next.mpr ⟨hp, st7_exact hn⟩⟩

/-- Settles O44: the three calls of the controller write in line order, and R161's check passes. -/
theorem st3InitialisesPid : Obligations.St3InitialisesPid := fun _ hp hn hle hts =>
  phaseStep_eq_next.mpr ⟨hp, st3_exact hn hle hts⟩

/-- Settles O45: the two draws are the two branches of the poll. -/
theorem st5Polls : Obligations.St5Polls := fun s hp =>
  ⟨phaseStep_eq_next.mpr ⟨hp, rfl⟩, phaseStep_eq_next.mpr ⟨hp, st5_notReady s⟩⟩

/-- Settles O46: ST8 is a seed, and ST9 reads the line whatever its operand is. -/
theorem st8SeedsSt9Caches : Obligations.St8SeedsSt9Caches := fun _ =>
  ⟨fun y hp hn => phaseStep_eq_next.mpr ⟨hp, st8_exact hn y⟩, fun _ hp => phaseStep_eq_next.mpr ⟨hp, rfl⟩⟩

/-- Settles O47: the sources the model enables are those of the build options. -/
theorem st10Enables : Obligations.St10Enables := by
  intro s hp
  rw [← enableSources_eq]
  exact phaseStep_eq_next.mpr ⟨hp, rfl⟩

/-- Settles O51: the reset state is one that RESET leaves, with its draws all 0, but for the counter of choices. -/
theorem resetHasInv : Obligations.ResetHasInv :=
  (StateInv.reset (some false) ⟨some false, some false, some false, some false, some false, some false⟩
    State.reset).set_trace_choices [] 0

end Sys2Proof.Proofs
end
